-- ==== Sys2Proof/Word.lean ====
section
/-! DEFINITION. The bit vectors of the believmr core and their two readings (00_scope.md R11, R12). -/

namespace Sys2Proof

/-- A data cell, a literal, or register X: 32 bits (R5 CELL_BITS, R12 `u32`/`i32`). -/
abbrev Word := BitVec 32

/-- A cell address: 16 bits, unsigned (R5 ADDR_BITS). -/
abbrev Addr := BitVec 16

/-- A jump offset field: 16 bits, read signed (R5 OFFSET_BITS, R54). -/
abbrev Offset := BitVec 16

/-- One byte of the program stream, of the status register, or of a printed string (R11). -/
abbrev Byte := BitVec 8

/-- `sint(v)`: the two's-complement value of a bit vector (R12). -/
abbrev sint {w : Nat} (v : BitVec w) : Int := v.toInt

/-- `uint(v)`: the unsigned value of a bit vector (R12). -/
abbrev uint {w : Nat} (v : BitVec w) : Nat := v.toNat

end Sys2Proof
end

