-- ==== Sys2Proof/Config.lean ====
section
/-! DEFINITION. What is fixed for the machine and no instruction changes: the parameters of 00_scope.md R5. -/

namespace Sys2Proof

/-- The two values the spec leaves open for a request still pending at the end of the program (R106, D13). -/
inductive FinalDrain where
  | deliver
  | drop
  deriving DecidableEq, Repr, Inhabited

/-- The two arguments a model takes when SUBROUTINE_VARIANT is true (R62): the declaration's opcode, and the function
from a byte string that begins with it to `(index, parameter count, bytes consumed)`, or none for
InvalidSubroutineOperand. -/
structure SubVariant where
  opcode : Byte
  decode : List Byte → Option (Nat × Nat × Nat)

namespace Config

/-- MEM_CELLS (R5, R19). -/
def memCells : Nat := 65536

/-- FINAL_DRAIN: OPEN in the spec (R5, R106, D13), so it has no value here and no proof can use one (log entry 3). -/
opaque finalDrain : FinalDrain

/-- SUBROUTINE_VARIANT = false in this hardware (R5, R62, D14). -/
def subroutineVariant : Option SubVariant := none

end Config

end Sys2Proof
end

