-- ==== Sys2Proof/Syntax.lean ====
section
/-! DEFINITION. The instructions: one constructor per row of the opcode table (30_encoding.md R55), and the spec's own
sum type of decoded values (00_scope.md R15) as a view of them. -/

namespace Sys2Proof

/-- The 19 instructions of R55. Operands stand in their encoding order (R64): source before destination. -/
inductive Instr where
  | print (addr : Addr)
  | mov (lit : Word) (dest : Addr)
  | assign (src dest : Addr)
  | add (src dest : Addr)
  | sub (src dest : Addr)
  | and (src dest : Addr)
  | or (src dest : Addr)
  | xor (src dest : Addr)
  | cmp (src dest : Addr)
  | shl (src dest : Addr)
  | shr (src dest : Addr)
  | sar (src dest : Addr)
  | mul (src dest : Addr)
  | div (src dest : Addr)
  | mfx (dest : Addr)
  | jmp (offset : Offset)
  | jn (offset : Offset)
  | jle (offset : Offset)
  | jz (offset : Offset)
  deriving DecidableEq, Repr

/-- The 12 ALU operations (R15). -/
inductive AluOp where
  | assign | add | sub | and | or | xor | cmp | shl | shr | sar | mul | div
  deriving DecidableEq, Repr

/-- An ALU source: a cell, or the tag ExtraX, which is no cell address (R15, R25). -/
inductive Src where
  | cell (a : Addr)
  | extraX
  deriving DecidableEq, Repr

/-- The four jump conditions (R15). -/
inductive Cond where
  | always | neg | negOrZero | zero
  deriving DecidableEq, Repr

/-- The spec's closed sum type of decoded values (R15). -/
inductive Decoded where
  | print (addr : Addr)
  | mov (lit : Word) (dest : Addr)
  | alu (op : AluOp) (src : Src) (dest : Addr)
  | jump (cond : Cond) (offset : Offset)
  deriving DecidableEq, Repr

/-- The two-operand ALU instruction of an operation (R55). -/
def Instr.ofAlu : AluOp → Addr → Addr → Instr
  | .assign => .assign
  | .add => .add
  | .sub => .sub
  | .and => .and
  | .or => .or
  | .xor => .xor
  | .cmp => .cmp
  | .shl => .shl
  | .shr => .shr
  | .sar => .sar
  | .mul => .mul
  | .div => .div

/-- The jump of a condition (R55). -/
def Instr.ofCond : Cond → Offset → Instr
  | .always => .jmp
  | .neg => .jn
  | .negOrZero => .jle
  | .zero => .jz

/-- The spec's decoded value of an instruction (the fifth column of R55's table). -/
def Instr.decoded : Instr → Decoded
  | .print a => .print a
  | .mov l d => .mov l d
  | .assign s d => .alu .assign (.cell s) d
  | .add s d => .alu .add (.cell s) d
  | .sub s d => .alu .sub (.cell s) d
  | .and s d => .alu .and (.cell s) d
  | .or s d => .alu .or (.cell s) d
  | .xor s d => .alu .xor (.cell s) d
  | .cmp s d => .alu .cmp (.cell s) d
  | .shl s d => .alu .shl (.cell s) d
  | .shr s d => .alu .shr (.cell s) d
  | .sar s d => .alu .sar (.cell s) d
  | .mul s d => .alu .mul (.cell s) d
  | .div s d => .alu .div (.cell s) d
  | .mfx d => .alu .assign .extraX d
  | .jmp o => .jump .always o
  | .jn o => .jump .neg o
  | .jle o => .jump .negOrZero o
  | .jz o => .jump .zero o

/-- The instruction of a decoded value; none for the values that have no encoding (R61: ExtraX with an operation other
than ASSIGN). -/
def Decoded.instr? : Decoded → Option Instr
  | .print a => some (.print a)
  | .mov l d => some (.mov l d)
  | .alu op (.cell s) d => some (Instr.ofAlu op s d)
  | .alu .assign .extraX d => some (.mfx d)
  | .alu _ .extraX _ => none
  | .jump c o => some (Instr.ofCond c o)

/-- The cell an instruction may write: `dest`, for every instruction that has one but CMP (R69). -/
def Instr.writes : Instr → Option Addr
  | .mov _ d | .assign _ d | .add _ d | .sub _ d | .and _ d | .or _ d | .xor _ d | .shl _ d | .shr _ d | .sar _ d
  | .mul _ d | .div _ d | .mfx d => some d
  | .print _ | .cmp _ _ | .jmp _ | .jn _ | .jle _ | .jz _ => none

end Sys2Proof
end

