-- ==== Sys2Proof/WellFormed.lean ====
section
/-! DEFINITION. Which decoded values and instructions are well formed. Every field value of every instruction is legal
(30_encoding.md R54, R59), so the one check is on the spec's decoded values: the tag ExtraX goes with ASSIGN alone (R61). -/

namespace Sys2Proof

/-- R61: "An `Alu` value with op other than ASSIGN and src = ExtraX has no encoding and is never produced." -/
def Decoded.wellFormed : Decoded → Bool
  | .alu op .extraX _ => op == .assign
  | .alu _ (.cell _) _ => true
  | .print _ => true
  | .mov _ _ => true
  | .jump _ _ => true

/-- An instruction is well formed when its decoded value is. No field of an instruction is reserved (R54), and the
constructor's types hold exactly the values the fields can carry, so every instruction is (Laws: `wellFormed_instr`). -/
def Instr.wellFormed (i : Instr) : Bool := i.decoded.wellFormed

end Sys2Proof
end

