-- ==== Sys2Proof/Decode.lean ====
section
/-! DEFINITION. The instruction decoder and the loader (30_encoding.md), the encoder (R61), and the load-time errors
(60_exceptions.md R111). -/

namespace Sys2Proof

/-- The decode-time errors with the data each records (R111). -/
inductive LoadError where
  | unknownOpcode (op : Byte)
  | invalidPrintOperand
  | invalidMovOperand
  | invalidAluOperand
  | invalidJumpOperand
  | emptySubroutine
  | invalidSubroutineOperand
  | duplicateSubroutine (index : Nat)
  deriving DecidableEq, Repr

/-- The numeric code of a load error (R111, D17). -/
def LoadError.code : LoadError → Byte
  | .unknownOpcode _ => 0x01
  | .invalidPrintOperand => 0x02
  | .invalidMovOperand => 0x03
  | .invalidAluOperand => 0x04
  | .invalidJumpOperand => 0x05
  | .emptySubroutine => 0x06
  | .invalidSubroutineOperand => 0x07
  | .duplicateSubroutine _ => 0x08

/-- What DecodeOne answers (R56): NoOpcode, an instruction with the bytes it consumed, or an error. -/
inductive DecodeResult where
  | noOpcode
  | ok (i : Instr) (n : Nat)
  | err (e : LoadError)
  deriving DecidableEq, Repr

/-- A row of the subroutine table (10_state.md R31): index ↦ (entry line, declared parameter count). -/
structure SubEntry where
  index : Nat
  entryLine : Nat
  paramCount : Nat
  deriving DecidableEq, Repr

/-- What the load interface answers (R6, R48, R62). -/
inductive LoadResult where
  | ok (prog : List Instr) (subtab : List SubEntry)
  | error (e : LoadError)
  deriving DecidableEq, Repr

/-! ## Field assembly (R54, R38) -/

/-- A 16-bit field from its two bytes, the high byte first. -/
def be16 (hi lo : Byte) : BitVec 16 := hi ++ lo

/-- The Mov literal from its four bytes, most significant first. -/
def be32 (b1 b2 b3 b4 : Byte) : Word := b1 ++ b2 ++ b3 ++ b4

/-- The two bytes of a 16-bit field, the high byte first. -/
def bytes16 (v : BitVec 16) : List Byte := [v.extractLsb' 8 8, v.extractLsb' 0 8]

/-- The four bytes of a 32-bit value, most significant first. -/
def bytes32 (v : Word) : List Byte :=
  [v.extractLsb' 24 8, v.extractLsb' 16 8, v.extractLsb' 8 8, v.extractLsb' 0 8]

/-! ## The opcode map (R55) -/

/-- AluOpOf (R56). -/
def aluOpOf (op : Byte) : Option AluOp :=
  match op.toNat with
  | 0x11 => some .assign
  | 0x12 => some .add
  | 0x13 => some .sub
  | 0x14 => some .and
  | 0x15 => some .or
  | 0x16 => some .xor
  | 0x17 => some .cmp
  | 0x18 => some .shl
  | 0x19 => some .shr
  | 0x1A => some .sar
  | 0x1B => some .mul
  | 0x1C => some .div
  | _ => none

/-- CondOf (R56). -/
def condOf (op : Byte) : Option Cond :=
  match op.toNat with
  | 0x20 => some .always
  | 0x21 => some .neg
  | 0x22 => some .negOrZero
  | 0x23 => some .zero
  | _ => none

/-! ## DecodeOne (R56), one function per format and error -/

/-- F3, Print (R51). -/
def decodePrint : List Byte → DecodeResult
  | b1 :: b2 :: _ => .ok (.print (be16 b1 b2)) 3
  | _ => .err .invalidPrintOperand

/-- F7, Mov (R53). -/
def decodeMov : List Byte → DecodeResult
  | b1 :: b2 :: b3 :: b4 :: b5 :: b6 :: _ => .ok (.mov (be32 b1 b2 b3 b4) (be16 b5 b6)) 7
  | _ => .err .invalidMovOperand

/-- F5, the Alu family (R52): source before destination. -/
def decodeAlu (op : AluOp) : List Byte → DecodeResult
  | b1 :: b2 :: b3 :: b4 :: _ => .ok (Instr.ofAlu op (be16 b1 b2) (be16 b3 b4)) 5
  | _ => .err .invalidAluOperand

/-- F3, move-from-extra (R51); its truncation is the Alu error (R56). -/
def decodeMfx : List Byte → DecodeResult
  | b1 :: b2 :: _ => .ok (.mfx (be16 b1 b2)) 3
  | _ => .err .invalidAluOperand

/-- F3, the Jump family (R51). -/
def decodeJump (c : Cond) : List Byte → DecodeResult
  | b1 :: b2 :: _ => .ok (Instr.ofCond c (be16 b1 b2)) 3
  | _ => .err .invalidJumpOperand

/-- DecodeOne (R56): total on every byte string; the first byte alone selects the format (R50). -/
def decodeOne : List Byte → DecodeResult
  | [] => .noOpcode
  | op :: rest =>
    if op = 0x00#8 then decodePrint rest
    else if op = 0x10#8 then decodeMov rest
    else match aluOpOf op with
      | some a => decodeAlu a rest
      | none =>
        if op = 0x1D#8 then decodeMfx rest
        else match condOf op with
          | some c => decodeJump c rest
          | none => .err (.unknownOpcode op)

/-! ## Load (R48, R62) -/

/-- The load loop of R48. The first argument bounds the calls of DecodeOne. `load` gives one more than the image's bytes,
and every call that goes on consumes at least three, so `load` never takes the first line (log entry 19). -/
def loadLoop : Nat → List Byte → List Instr → LoadResult
  | 0, _, prog => .ok prog []
  | fuel + 1, rest, prog =>
    match decodeOne rest with
    | .noOpcode => .ok prog []
    | .err e => .error e
    | .ok i n => loadLoop fuel (rest.drop n) (prog ++ [i])

/-- The load loop of R62, for a model that turns the subroutine variant on. -/
def loadSubLoop (v : SubVariant) : Nat → List Byte → List Instr → List SubEntry → LoadResult
  | 0, _, prog, subtab => .ok prog subtab
  | fuel + 1, rest, prog, subtab =>
    match rest with
    | [] => .ok prog subtab
    | op :: _ =>
      if op = v.opcode then
        match v.decode rest with
        | none => .error .invalidSubroutineOperand
        | some (k, c, n) =>
          match rest.drop n with
          | [] => .error .emptySubroutine
          | op' :: body =>
            if op' = v.opcode then .error .emptySubroutine
            else match decodeOne (op' :: body) with
              | .noOpcode => .error .emptySubroutine
              | .err e => .error e
              | .ok i m =>
                if subtab.any (fun row => row.index == k) then .error (.duplicateSubroutine k)
                else loadSubLoop v fuel ((op' :: body).drop m) (prog ++ [i]) (subtab ++ [⟨k, prog.length, c⟩])
      else match decodeOne rest with
        | .noOpcode => .ok prog subtab
        | .err e => .error e
        | .ok i m => loadSubLoop v fuel (rest.drop m) (prog ++ [i]) subtab

/-- Load with the subroutine variant off (`none`, R48) or on (`some v`, R62). -/
def loadImage (variant : Option SubVariant) (image : List Byte) : LoadResult :=
  match variant with
  | none => loadLoop (image.length + 1) image []
  | some v => loadSubLoop v (image.length + 1) image [] []

/-- The load interface of this hardware (R6, R48): the variant is off (R62). -/
def load (image : List Byte) : LoadResult := loadImage Config.subroutineVariant image

/-! ## The encoder (R61) -/

/-- The words of format F5. -/
def encodeF5 (op : Byte) (src dest : Addr) : List Byte := op :: (bytes16 src ++ bytes16 dest)

/-- Enc (R61), with the opcodes of R55. -/
def encode : Instr → List Byte
  | .print a => 0x00#8 :: bytes16 a
  | .mov l d => 0x10#8 :: (bytes32 l ++ bytes16 d)
  | .assign s d => encodeF5 0x11#8 s d
  | .add s d => encodeF5 0x12#8 s d
  | .sub s d => encodeF5 0x13#8 s d
  | .and s d => encodeF5 0x14#8 s d
  | .or s d => encodeF5 0x15#8 s d
  | .xor s d => encodeF5 0x16#8 s d
  | .cmp s d => encodeF5 0x17#8 s d
  | .shl s d => encodeF5 0x18#8 s d
  | .shr s d => encodeF5 0x19#8 s d
  | .sar s d => encodeF5 0x1A#8 s d
  | .mul s d => encodeF5 0x1B#8 s d
  | .div s d => encodeF5 0x1C#8 s d
  | .mfx d => 0x1D#8 :: bytes16 d
  | .jmp o => 0x20#8 :: bytes16 o
  | .jn o => 0x21#8 :: bytes16 o
  | .jle o => 0x22#8 :: bytes16 o
  | .jz o => 0x23#8 :: bytes16 o

/-- The image of a program: its instructions' encodings, concatenated with no padding (R39, R47). -/
def encodeProgram (prog : List Instr) : List Byte := prog.flatMap encode

/-- The length of an instruction, fixed by its opcode (R50). -/
def Instr.size : Instr → Nat
  | .mov _ _ => 7
  | .print _ | .mfx _ | .jmp _ | .jn _ | .jle _ | .jz _ => 3
  | .assign _ _ | .add _ _ | .sub _ _ | .and _ _ | .or _ _ | .xor _ _ | .cmp _ _ | .shl _ _ | .shr _ _ | .sar _ _
  | .mul _ _ | .div _ _ => 5

/-- The invalid-operand error of an instruction's family (R58). -/
def Instr.truncationError : Instr → LoadError
  | .print _ => .invalidPrintOperand
  | .mov _ _ => .invalidMovOperand
  | .assign _ _ | .add _ _ | .sub _ _ | .and _ _ | .or _ _ | .xor _ _ | .cmp _ _ | .shl _ _ | .shr _ _ | .sar _ _
  | .mul _ _ | .div _ _ | .mfx _ => .invalidAluOperand
  | .jmp _ | .jn _ | .jle _ | .jz _ => .invalidJumpOperand

/-! ## The opcode table's numbering -/

/-- The `n` bytes of a number, most significant first. -/
def beBytes : Nat → Nat → List Byte
  | 0, _ => []
  | n + 1, w => BitVec.ofNat 8 (w / 256 ^ n) :: beBytes n w

/-- The bytes of a table word in stream order: the table numbers each row as ONE big-endian word, the opcode in its top
byte (R51 to R53, and the table's own match and mask), followed by zero bytes up to the longest instruction
(log entry 12). -/
def tableBytes (nbits w : Nat) : List Byte := beBytes (nbits / 8) w ++ List.replicate 6 0#8

/-- What DecodeOne reads from an opcode-table word of `nbits` bits. -/
def decodeTableWord (nbits w : Nat) : Option Instr :=
  match decodeOne (tableBytes nbits w) with
  | .ok i _ => some i
  | .noOpcode => none
  | .err _ => none

end Sys2Proof
end

