-- ==== Sys2Proof/Machine/State.lean ====
section
/-! DEFINITION. The architectural state (10_state.md R17), the run-time errors (60_exceptions.md R112), the reasons a
step of the model can stop, and the state after reset (70_reset_and_hazards.md R125). -/

namespace Sys2Proof.Machine

/-- Data memory: (address, cell) pairs in rising order, listing only the cells that are not zero (log entry 10). The
unit is the spec's only unit, the 32-bit cell (R36). `Memory.wf` in Ops.lean says the canonical form. -/
abbrev Memory := List (Nat × Word)

/-- A request to the host (R29, R96). It carries the byte buffer `buf`, as R95 allows; the string `UTF8_LOSSY(buf)` is
`Request.text` in SysCall.lean (log entry 1). -/
inductive Request where
  | print (buf : List Byte)
  deriving DecidableEq, Repr

/-- The run-time errors, each with the data it records (R112). The first two cannot occur (R60). -/
inductive RunError where
  | invalidAluOperation (op : Byte)
  | invalidJumpOpcode (op : Byte)
  | invalidNegativeOffset (o : Int)
  | invalidPositiveOffset (o : Int)
  | divisionByZero (src dest : Addr)
  | divideOverflow (src dest : Addr)
  | unterminatedString (addr : Addr)
  deriving DecidableEq, Repr

/-- The run state (R30): `faulted e p` is the spec's Faulted(e, p). -/
inductive RunState where
  | ready
  | running
  | halted
  | faulted (e : RunError) (p : Nat)
  deriving DecidableEq, Repr

/-- A call frame (R32): captured parameter values and a return address. No instruction makes one. -/
structure Frame where
  params : List Word
  returnAddr : Nat
  deriving DecidableEq, Repr

/-- The architectural state: the items of R17, and `hostCalls`, the model's own record of the events on the host-call
interface (R8, R104; log entry 8). The program length L is the length of `prog` (R48; log entry 9). -/
structure State where
  /-- `mem[0..65535]` (R19) -/
  mem : Memory
  /-- the status register ST (R21) -/
  st : Byte
  /-- the special register X (R24) -/
  x : Word
  /-- the program counter, a natural number (R26) -/
  pc : Nat
  /-- the decoded program (R28) -/
  prog : List Instr
  /-- the pending-syscall slot (R29) -/
  pending : Option Request
  /-- the run state (R30) -/
  run : RunState
  /-- the subroutine table, empty in this hardware (R31) -/
  subtab : List SubEntry
  /-- the call-frame stack, always empty in this hardware (R32) -/
  frames : List Frame
  /-- the host calls emitted so far, oldest first (R104) -/
  hostCalls : List Request
  deriving DecidableEq, Repr

/-- Why a step of the model stops with a fault. -/
inductive Fault where
  /-- A step asked of a state that is Faulted(e, p): the run is over and its error is reported (R107, R113). Raised by
  `step` only, never by an instruction, whose error is the NEXT state Faulted(e, p). Safe: no further cycle exists. -/
  | runError (e : RunError) (p : Nat)
  /-- A cycle found pc beyond the program's end, so there is no instruction to fetch. Raised by `step` only, in states no
  run reaches (R26: pc ≤ L). Safe (log entry 7). -/
  | pcBeyondProgram
  deriving DecidableEq, Repr

/-- Why the model refuses a step. -/
inductive Refusal where
  /-- An instruction without a meaning, by its mnemonic. Raised by `exec` only; no arm uses it now. Safe. -/
  | notModelled (mnemonic : String)
  /-- A step asked of a state that is Halted: `run` outside Ready "has no effect and is refused" (R98). Raised by `step`
  only. Safe (log entry 6). -/
  | halted
  deriving DecidableEq, Repr

/-- The state after reset (R125), with no program loaded yet: L = 0. `State.ofProgram` in Interface.lean is the reset
state of a loaded program. -/
def State.reset : State where
  mem := []
  st := 0x00
  x := 0
  pc := 0
  prog := []
  pending := none
  run := .ready
  subtab := []
  frames := []
  hostCalls := []

end Sys2Proof.Machine
end

