-- ==== Sys2Proof/Machine/Ops.lean ====
section
/-! DEFINITION. The named operations over memory and registers (00_scope.md R13), and the one way an instruction raises a
run-time error (60_exceptions.md R113). -/

namespace Sys2Proof.Machine

/-! ## Data memory (R19, R20, R42) -/

/-- What a cell never written reads as: 0, the reset contents (R20). -/
def Memory.unlisted : Word := 0

/-- The cell at an address. -/
def Memory.read : Memory → Nat → Word
  | [], _ => Memory.unlisted
  | (k, v) :: m, a => if k = a then v else Memory.read m a

/-- Memory with no entry for an address. -/
def Memory.erase : Memory → Nat → Memory
  | [], _ => []
  | (k, v) :: m, a => if k = a then Memory.erase m a else (k, v) :: Memory.erase m a

/-- Memory with an entry placed before the first higher address. -/
def Memory.insert : Memory → Nat → Word → Memory
  | [], a, v => [(a, v)]
  | (k, w) :: m, a, v => if a < k then (a, v) :: (k, w) :: m else (k, w) :: Memory.insert m a v

/-- Memory after a cell is written; writing what an unlisted cell reads as leaves no entry. -/
def Memory.write (m : Memory) (a : Nat) (v : Word) : Memory :=
  if v = Memory.unlisted then Memory.erase m a else Memory.insert (Memory.erase m a) a v

/-- Every address is at least `lo`, rising, and a cell of the machine, and no cell listed is one that need not be. -/
def Memory.wfFrom : Nat → Memory → Bool
  | _, [] => true
  | lo, (a, v) :: m => decide (lo ≤ a) && decide (a < Config.memCells) && v != Memory.unlisted && Memory.wfFrom (a + 1) m

/-- The canonical form: equal memories are equal lists (Laws: `Memory.ext_of_read`). -/
def Memory.wf (m : Memory) : Bool := Memory.wfFrom 0 m

/-! ## Register updates -/

def State.withMem (s : State) (m : Memory) : State := { s with mem := m }
def State.withSt (s : State) (v : Byte) : State := { s with st := v }
def State.withX (s : State) (v : Word) : State := { s with x := v }
def State.withPc (s : State) (n : Nat) : State := { s with pc := n }
def State.withPending (s : State) (r : Option Request) : State := { s with pending := r }
def State.withRun (s : State) (r : RunState) : State := { s with run := r }

/-- `emit HostCall(r)`: one event on the host-call interface (R14, R104). -/
def State.emit (s : State) (r : Request) : State := { s with hostCalls := s.hostCalls ++ [r] }

/-- L, the program length (R17, R48). -/
def State.progLen (s : State) : Nat := s.prog.length

/-! ## State primitives (R13) -/

/-- `MemRead(a, 1)`. The effective address of a field is its unsigned value (R66). -/
def State.memRead (s : State) (a : Addr) : Word := Memory.read s.mem (uint a)

/-- `MemWrite(a, 1, v)`. -/
def State.memWrite (s : State) (a : Addr) (v : Word) : State := s.withMem (Memory.write s.mem (uint a) v)

/-- `p`, the index of the instruction that executes: pc = p + 1 then (R16, R27; log entry 11). -/
def State.ownIndex (s : State) : Nat := s.pc - 1

/-! ## Raising a run-time error -/

/-- `raise e` (R14) and fault entry (R113): the run state becomes Faulted(e, p), and nothing else changes. "Nothing is
saved anywhere else. pc keeps p + 1. Memory, ST, X and pending keep their values." There is no return (R116). -/
def State.raise (s : State) (e : RunError) : State := s.withRun (.faulted e s.ownIndex)

/-- The numeric code of a run-time error (R112, D17). -/
def RunError.code : RunError → Byte
  | .invalidAluOperation _ => 0x10
  | .invalidJumpOpcode _ => 0x11
  | .invalidNegativeOffset _ => 0x12
  | .invalidPositiveOffset _ => 0x13
  | .divisionByZero _ _ => 0x14
  | .divideOverflow _ _ => 0x15
  | .unterminatedString _ => 0x16

end Sys2Proof.Machine
end

