-- ==== Sys2Proof/Machine/Operands.lean ====
section
/-! DEFINITION. Operand forms, narrowing and bit fields (00_scope.md R11, R12; 40_mov.md R66; 41_alu.md R68, R78). -/

namespace Sys2Proof.Machine

/-- `trunc_32(x)` (R12). -/
def trunc32 (i : Int) : Word := BitVec.ofInt 32 i

/-- `trunc_64(x)` (R12). -/
def trunc64 (i : Int) : BitVec 64 := BitVec.ofInt 64 i

/-- `w[31:0]` of a 64-bit value (R82). -/
def lowWord (w : BitVec 64) : Word := w.extractLsb' 0 32

/-- `w[63:32]` of a 64-bit value (R82). -/
def highWord (w : BitVec 64) : Word := w.extractLsb' 32 32

/-- The value of an ALU source: a cell, or register X for the tag ExtraX (R25, R68). -/
def State.readSrc (s : State) : Src → Word
  | .cell a => s.memRead a
  | .extraX => s.x

/-- `uint(b[4:0])`, the amount of every shift (R78). -/
def shiftAmount (b : Word) : Nat := uint (b.extractLsb' 0 5)

/-- The four bytes of a cell, most significant first (R38 (b), R94). -/
def cellBytes (w : Word) : List Byte :=
  [w.extractLsb' 24 8, w.extractLsb' 16 8, w.extractLsb' 8 8, w.extractLsb' 0 8]

/-- The shared shape of the two-operand ALU operations that write only `dest` (R68, R69): read b from src, then a from
dest, compute, write. -/
def State.aluUpdate (s : State) (src : Src) (dest : Addr) (f : Word → Word → Word) : State :=
  let b := s.readSrc src
  let a := s.memRead dest
  s.memWrite dest (f a b)

end Sys2Proof.Machine
end

