-- ==== Sys2Proof/Machine/Flags.lean ====
section
/-! DEFINITION. The status register's flags: who reads them and what CMP makes of them (10_state.md R21 to R23; 41_alu.md
R77). -/

namespace Sys2Proof.Machine

/-- ST.Z = ST[0] (R13, R21). -/
def State.flagZ (s : State) : Bool := s.st.getLsbD 0

/-- ST.N = ST[1] (R13, R21). -/
def State.flagN (s : State) : Bool := s.st.getLsbD 1

/-- A status byte with Z and N replaced and bits 7:2 kept, which are "never written" (R21; log entry 16). -/
def setFlags (st : Byte) (z n : Bool) : Byte :=
  (st &&& 0xFC#8) ||| ((BitVec.ofBool n).zeroExtend 8 <<< 1) ||| (BitVec.ofBool z).zeroExtend 8

/-- The difference CMP tests: dest − src, wrapped (R77, D4). -/
def cmpDifference (a b : Word) : Word := trunc32 (sint a - sint b)

/-- ST after CMP of a (dest) and b (src): both flags cleared, then N set if the wrapped difference is negative, else Z
set if it is zero (R77). -/
def cmpFlags (st : Byte) (a b : Word) : Byte :=
  let d := cmpDifference a b
  let cleared := setFlags st false false
  if sint d < 0 then setFlags cleared false true
  else if d = 0 then setFlags cleared true false
  else cleared

/-- When a jump's condition holds (R23). -/
def Cond.holds : Cond → State → Bool
  | .always, _ => true
  | .neg, s => s.flagN
  | .negOrZero, s => s.flagN || s.flagZ
  | .zero, s => s.flagZ

end Sys2Proof.Machine
end

