-- ==== Sys2Proof/Machine/Alu.lean ====
section
/-! DEFINITION. The Alu family (41_alu.md). In every operation a is the old value of dest and b the value of src. -/

namespace Sys2Proof.Machine

/-- ASSIGN (R71). -/
def execAssign (src dest : Addr) (s : State) : Host.Outcome State Fault Refusal :=
  .next (s.aluUpdate (.cell src) dest fun _ b => b)

/-- AND (R72). -/
def execAnd (src dest : Addr) (s : State) : Host.Outcome State Fault Refusal :=
  .next (s.aluUpdate (.cell src) dest fun a b => a &&& b)

/-- OR (R73). -/
def execOr (src dest : Addr) (s : State) : Host.Outcome State Fault Refusal :=
  .next (s.aluUpdate (.cell src) dest fun a b => a ||| b)

/-- XOR (R74). -/
def execXor (src dest : Addr) (s : State) : Host.Outcome State Fault Refusal :=
  .next (s.aluUpdate (.cell src) dest fun a b => a ^^^ b)

/-- ADD (R75): the exact sum, wrapped. -/
def execAdd (src dest : Addr) (s : State) : Host.Outcome State Fault Refusal :=
  .next (s.aluUpdate (.cell src) dest fun a b => trunc32 (sint a + sint b))

/-- SUB (R76): dest − src, wrapped. -/
def execSub (src dest : Addr) (s : State) : Host.Outcome State Fault Refusal :=
  .next (s.aluUpdate (.cell src) dest fun a b => trunc32 (sint a - sint b))

/-- CMP (R77): only ST changes. -/
def execCmp (src dest : Addr) (s : State) : Host.Outcome State Fault Refusal :=
  .next (s.withSt (cmpFlags s.st (s.memRead dest) (s.memRead src)))

/-- SHL (R79): trunc_32(uint(a) × 2^k). -/
def execShl (src dest : Addr) (s : State) : Host.Outcome State Fault Refusal :=
  .next (s.aluUpdate (.cell src) dest fun a b => trunc32 ((uint a * 2 ^ shiftAmount b : Nat)))

/-- SHR (R80): floor(uint(a) / 2^k). -/
def execShr (src dest : Addr) (s : State) : Host.Outcome State Fault Refusal :=
  .next (s.aluUpdate (.cell src) dest fun a b => trunc32 ((uint a / 2 ^ shiftAmount b : Nat)))

/-- SAR (R81): trunc_32(floor(sint(a) / 2^k)). -/
def execSar (src dest : Addr) (s : State) : Host.Outcome State Fault Refusal :=
  .next (s.aluUpdate (.cell src) dest fun a b => trunc32 (Int.fdiv (sint a) (2 ^ shiftAmount b)))

/-- MUL (R82): the exact signed product, its low word to dest and its high word to X. -/
def execMul (src dest : Addr) (s : State) : Host.Outcome State Fault Refusal :=
  let w := trunc64 (sint (s.memRead dest) * sint (s.memRead src))
  .next ((s.memWrite dest (lowWord w)).withX (highWord w))

/-- DIV (R83): the two checks, then the quotient truncated toward zero to dest and the remainder to X. -/
def execDiv (src dest : Addr) (s : State) : Host.Outcome State Fault Refusal :=
  let b := sint (s.memRead src)
  let a := sint (s.memRead dest)
  if b = 0 then .next (s.raise (.divisionByZero src dest))
  else if a = -2 ^ 31 ∧ b = -1 then .next (s.raise (.divideOverflow src dest))
  else
    let q := Int.tdiv a b
    .next ((s.memWrite dest (trunc32 q)).withX (trunc32 (a - q * b)))

/-- MFX (R84): X to dest. The decoded value is ASSIGN with the tag ExtraX (R15). -/
def execMfx (dest : Addr) (s : State) : Host.Outcome State Fault Refusal :=
  .next (s.aluUpdate .extraX dest fun _ b => b)

end Sys2Proof.Machine
end

