-- ==== Sys2Proof/Machine/Jump.lean ====
section
/-! DEFINITION. The Jump family (42_jump.md). -/

namespace Sys2Proof.Machine

/-- The bounds check of R86 for an offset `o` of the instruction that executes: the error it raises, if any. It does not
look at the condition (R87). Both tests use p = pc − 1, as an exact integer. -/
def jumpCheck (o : Int) (s : State) : Option RunError :=
  let p : Int := (s.pc : Int) - 1
  if o < 0 ∧ p + o < 0 then some (.invalidNegativeOffset o)
  else if 0 < o ∧ (s.progLen : Int) - 1 < p + o then some (.invalidPositiveOffset o)
  else none

/-- The target p + 1 + o of a taken jump (R85), which is not negative once the check has passed. -/
def jumpTarget (o : Int) (s : State) : Nat := ((s.pc : Int) + o).toNat

/-- JumpExec(C, o) (R88). -/
def jumpExec (c : Cond) (offset : Offset) (s : State) : Host.Outcome State Fault Refusal :=
  match jumpCheck (sint offset) s with
  | some e => .next (s.raise e)
  | none => .next (if Cond.holds c s then s.withPc (jumpTarget (sint offset) s) else s)

/-- JMP (R90). -/
def execJmp (offset : Offset) (s : State) : Host.Outcome State Fault Refusal := jumpExec .always offset s

/-- JN (R91). -/
def execJn (offset : Offset) (s : State) : Host.Outcome State Fault Refusal := jumpExec .neg offset s

/-- JLE (R92). -/
def execJle (offset : Offset) (s : State) : Host.Outcome State Fault Refusal := jumpExec .negOrZero offset s

/-- JZ (R93). -/
def execJz (offset : Offset) (s : State) : Host.Outcome State Fault Refusal := jumpExec .zero offset s

end Sys2Proof.Machine
end

