-- ==== Sys2Proof/Machine/Mov.lean ====
section
/-! DEFINITION. The Mov family (40_mov.md). -/

namespace Sys2Proof.Machine

/-- MOV (R67): the 32 literal bits, stored unchanged. -/
def execMov (lit : Word) (dest : Addr) (s : State) : Host.Outcome State Fault Refusal :=
  .next (s.memWrite dest lit)

end Sys2Proof.Machine
end

