-- ==== Sys2Proof/Machine/Utf8.lean ====
section
/-! DEFINITION. UTF8_LOSSY (43_syscall.md R95): well-formed sequences decode to their code points, and each maximal prefix
of an ill-formed sequence becomes one U+FFFD. PRESUMED: the spec marks this table as general knowledge (G1), and no step
of the machine depends on it (log entry 2). -/

namespace Sys2Proof.Machine

/-- U+FFFD REPLACEMENT CHARACTER. -/
def replacementChar : Char := Char.ofNat 0xFFFD

/-- Where the conversion stands inside a sequence: the code point so far, how many bytes are still due, and the range
the next of them must lie in. -/
structure Utf8Partial where
  acc : Nat
  due : Nat
  lo : Nat
  hi : Nat
  deriving DecidableEq, Repr

/-- What a byte at the start of a sequence gives: a whole character, the start of a sequence, or an ill-formed byte. The
second byte's range is narrower after E0, ED, F0 and F4, which shuts out overlong forms, surrogates and values above
10FFFF. -/
def utf8Lead (b : Byte) : Option Char × Option Utf8Partial :=
  let n := b.toNat
  if n < 0x80 then (some (Char.ofNat n), none)
  else if n < 0xC2 then (some replacementChar, none)
  else if n < 0xE0 then (none, some ⟨n - 0xC0, 1, 0x80, 0xBF⟩)
  else if n = 0xE0 then (none, some ⟨0, 2, 0xA0, 0xBF⟩)
  else if n = 0xED then (none, some ⟨0xD, 2, 0x80, 0x9F⟩)
  else if n < 0xF0 then (none, some ⟨n - 0xE0, 2, 0x80, 0xBF⟩)
  else if n = 0xF0 then (none, some ⟨0, 3, 0x90, 0xBF⟩)
  else if n < 0xF4 then (none, some ⟨n - 0xF0, 3, 0x80, 0xBF⟩)
  else if n = 0xF4 then (none, some ⟨4, 3, 0x80, 0x8F⟩)
  else (some replacementChar, none)

/-- The conversion from a position at the start of a sequence (`none`) or inside one. -/
def utf8Decode : Option Utf8Partial → List Byte → List Char
  | none, [] => []
  | some _, [] => [replacementChar]
  | none, b :: bs =>
    let r := utf8Lead b
    r.1.toList ++ utf8Decode r.2 bs
  | some q, b :: bs =>
    if q.lo ≤ b.toNat ∧ b.toNat ≤ q.hi then
      let acc := q.acc * 64 + (b.toNat - 0x80)
      if q.due = 1 then Char.ofNat acc :: utf8Decode none bs
      else utf8Decode (some ⟨acc, q.due - 1, 0x80, 0xBF⟩) bs
    else
      let r := utf8Lead b
      replacementChar :: (r.1.toList ++ utf8Decode r.2 bs)

/-- UTF8_LOSSY (R5, R95). -/
def utf8Lossy (buf : List Byte) : List Char := utf8Decode none buf

end Sys2Proof.Machine
end

