-- ==== Sys2Proof/Machine/SysCall.lean ====
section
/-! DEFINITION. The SysCall family (43_syscall.md). -/

namespace Sys2Proof.Machine

/-- What PRINT finds in one cell: the zero byte, with the buffer up to it, or no zero byte, with the buffer so far. -/
inductive CellScan where
  | done (buf : List Byte)
  | more (buf : List Byte)
  deriving DecidableEq, Repr

/-- The inner loop of R94 over a cell's bytes. -/
def scanBytes : List Byte → List Byte → CellScan
  | [], buf => .more buf
  | b :: bs, buf => if b = 0x00#8 then .done buf else scanBytes bs (buf ++ [b])

/-- The outer loop of R94 over `n` cells from `c`: the buffer at the zero byte, or none when there is no cell left. -/
def scanCells (m : Memory) : Nat → Nat → List Byte → Option (List Byte)
  | 0, _, _ => none
  | n + 1, c, buf =>
    match scanBytes (cellBytes (Memory.read m c)) buf with
    | .done found => some found
    | .more found => scanCells m n (c + 1) found

/-- The bytes of the NUL-terminated string at an address, or none when no zero byte occurs in cells addr to 65535 (R94). -/
def State.cString (s : State) (addr : Addr) : Option (List Byte) :=
  scanCells s.mem (Config.memCells - uint addr) (uint addr) []

/-- PRINT (R94): leave a request in the pending slot; only a missing terminator raises. -/
def execPrint (addr : Addr) (s : State) : Host.Outcome State Fault Refusal :=
  match s.cString addr with
  | none => .next (s.raise (.unterminatedString addr))
  | some buf => .next (s.withPending (some (.print buf)))

/-- The string a request delivers, `UTF8_LOSSY(buf)` (R94, R95). -/
def Request.text : Request → List Char
  | .print buf => utf8Lossy buf

end Sys2Proof.Machine
end

