-- ==== Sys2Proof/Machine/Dispatch.lean ====
section
/-! DEFINITION. Execute (44_fetch_execute.md R102): one arm per instruction. When an arm runs, pc = p + 1 (R100). -/

namespace Sys2Proof.Machine

def exec (i : Instr) (s : State) : Host.Outcome State Fault Refusal :=
  match i with
  | .print addr => Sys2Proof.Machine.execPrint addr s
  | .mov lit dest => Sys2Proof.Machine.execMov lit dest s
  | .assign src dest => Sys2Proof.Machine.execAssign src dest s
  | .add src dest => Sys2Proof.Machine.execAdd src dest s
  | .sub src dest => Sys2Proof.Machine.execSub src dest s
  | .and src dest => Sys2Proof.Machine.execAnd src dest s
  | .or src dest => Sys2Proof.Machine.execOr src dest s
  | .xor src dest => Sys2Proof.Machine.execXor src dest s
  | .cmp src dest => Sys2Proof.Machine.execCmp src dest s
  | .shl src dest => Sys2Proof.Machine.execShl src dest s
  | .shr src dest => Sys2Proof.Machine.execShr src dest s
  | .sar src dest => Sys2Proof.Machine.execSar src dest s
  | .mul src dest => Sys2Proof.Machine.execMul src dest s
  | .div src dest => Sys2Proof.Machine.execDiv src dest s
  | .mfx dest => Sys2Proof.Machine.execMfx dest s
  | .jmp offset => Sys2Proof.Machine.execJmp offset s
  | .jn offset => Sys2Proof.Machine.execJn offset s
  | .jle offset => Sys2Proof.Machine.execJle offset s
  | .jz offset => Sys2Proof.Machine.execJz offset s

end Sys2Proof.Machine
end

