-- ==== Sys2Proof/Machine/Controller.lean ====
section
/-! DEFINITION. The fetch-execute loop controller (44_fetch_execute.md): the parts of Cycle, and the run command. -/

namespace Sys2Proof.Machine

/-- Step (1) of Cycle (R99, R103): deliver a pending request to the host, once, and clear the slot. -/
def State.deliver (s : State) : State :=
  match s.pending with
  | none => s
  | some r => (s.emit r).withPending none

/-- Step (2) of Cycle (R99, R100): advance the counter. -/
def State.advance (s : State) : State := s.withPc (s.pc + 1)

/-- `prog[p]` at p = pc (R101). -/
def State.fetch (s : State) : Option Instr := s.prog[s.pc]?

/-- FinalDrain (R106): with FINAL_DRAIN = drop, the request is never delivered. -/
def State.finalDrain (s : State) : State :=
  match Config.finalDrain with
  | .deliver => s.deliver
  | .drop => s.withPending none

/-- The `run` command in Ready (R7, R98). -/
def State.start (s : State) : State := s.withRun .running

/-- Cycle (R99): the end test, or deliver, advance, fetch and execute. An error leaves Faulted(e, p) through `raise`. -/
def cycle (s : State) : Host.Outcome State Fault Refusal :=
  if s.pc = s.progLen then .next (s.finalDrain.withRun .halted)
  else match s.fetch with
    | some i => exec i s.deliver.advance
    | none => .fault .pcBeyondProgram

/-- The program with instruction `i` at index `k`, and `i` also in the places below `k` that the program did not have. -/
def placeInstr (prog : List Instr) (k : Nat) (i : Instr) : List Instr :=
  prog.take k ++ List.replicate (k - prog.length) i ++ i :: prog.drop (k + 1)

/-- The state in which the next cycle runs `i`: `i` in the program at pc, and run = Running. -/
def State.placeNext (s : State) (i : Instr) : State :=
  { s with prog := placeInstr s.prog s.pc i, run := .running }

end Sys2Proof.Machine
end

