-- ==== Sys2Proof/Machine/Step.lean ====
section
/-! DEFINITION. One step of the machine: the `run` command in Ready, one Cycle in Running, and no step in the terminal
states (44_fetch_execute.md R98, R99; 70_reset_and_hazards.md R130). -/

namespace Sys2Proof.Machine

/-- The step function. In Ready the step is the host's `run` command (log entry 5); Halted and Faulted are terminal
(R30; log entry 6). -/
def step (s : State) : Host.Outcome State Fault Refusal :=
  match s.run with
  | .ready => .next s.start
  | .running => cycle s
  | .halted => .refused .halted
  | .faulted e p => .fault (.runError e p)

/-- The state in which the next step runs the instruction of an opcode-table word: it stands for the load of a program
that has it at pc, and for `run` (log entry 13). A word the decoder refuses is in no program, so nothing is placed. -/
def State.withFetchWord (s : State) (nbits w : Nat) : State :=
  match decodeTableWord nbits w with
  | some i => s.placeNext i
  | none => s

end Sys2Proof.Machine
end

