-- ==== Sys2Proof/Machine/Interface.lean ====
section
/-! DEFINITION. The block's interfaces (00_scope.md R6 to R9): load, run control, status and the debug read port. The
host-call interface is `State.hostCalls`. -/

namespace Sys2Proof.Machine

/-- The reset state of a loaded program (R125, R127): prog and the subroutine table from the load, all else at reset. -/
def State.ofLoaded (prog : List Instr) (subtab : List SubEntry) : State :=
  { State.reset with prog := prog, subtab := subtab }

/-- The reset state of a program loaded with the variant off. -/
def State.ofProgram (prog : List Instr) : State := State.ofLoaded prog []

/-- What the outside sees of a load (R6): the machine in its reset state, or the error and no machine at all. -/
inductive Boot where
  | ready (s : State)
  | loadError (e : LoadError)
  deriving DecidableEq, Repr

/-- Load, then construct the context (R127). -/
def boot (image : List Byte) : Boot :=
  match load image with
  | .ok prog subtab => .ready (State.ofLoaded prog subtab)
  | .error e => .loadError e

/-- A command the block may refuse, leaving the state unchanged. -/
inductive Reply (α : Type) where
  | accepted (a : α)
  | refused
  deriving DecidableEq, Repr

/-- The `run` command (R7, R98): accepted in Ready only. -/
def State.runCommand (s : State) : Reply State :=
  match s.run with
  | .ready => .accepted s.start
  | .running => .refused
  | .halted => .refused
  | .faulted _ _ => .refused

/-- The status output (R7, R113): the run state, and in Faulted the error's code beside its name and data. -/
structure Status where
  run : RunState
  code : Option Byte
  deriving DecidableEq, Repr

def State.status (s : State) : Status :=
  match s.run with
  | .faulted e p => ⟨.faulted e p, some e.code⟩
  | .ready => ⟨.ready, none⟩
  | .running => ⟨.running, none⟩
  | .halted => ⟨.halted, none⟩

/-- The debug read port (R9, R123): the cells [a, a + n), refused past cell 65535 (D22) and while Running (D29). It
answers a value and no state, so it changes none. -/
def State.debugRead (s : State) (a n : Nat) : Reply (List Word) :=
  if s.run = .running then .refused
  else if Config.memCells < a + n then .refused
  else .accepted ((List.range' a n).map (Memory.read s.mem))

end Sys2Proof.Machine
end

