-- ==== Sys2Proof/Safety.lean ====
section
/-! DEFINITION. The invariant of the machine's states, reachability, and what a safe run is. -/

namespace Sys2Proof.Machine

/-- What the spec says of every state of the machine at a step boundary. -/
structure State.Inv (s : State) : Prop where
  /-- memory is in canonical form and lies inside the 65536 cells (R19) -/
  memory : Memory.wf s.mem = true
  /-- ST is 0x00, 0x01 or 0x02 (R17, R22) -/
  status : s.st = 0x00#8 ∨ s.st = 0x01#8 ∨ s.st = 0x02#8
  /-- 0 ≤ pc ≤ L (R26) -/
  counter : s.pc ≤ s.progLen
  /-- the subroutine table is empty: the variant is off (R31) -/
  table : s.subtab = []
  /-- the call-frame stack stays empty (R32) -/
  frames : s.frames = []
  /-- outside Running the slot is empty (R29, R106, R107) -/
  slot : s.run ≠ .running → s.pending = none
  /-- a Ready machine is a loaded program in its reset state (R125) -/
  ready : s.run = .ready → s = State.ofProgram s.prog
  /-- a Halted machine has pc = L (R105) -/
  halted : s.run = .halted → s.pc = s.progLen
  /-- a Faulted(e, p) machine has pc = p + 1, with p an index of the program (R107, R113) -/
  faulted : ∀ e p, s.run = .faulted e p → s.pc = p + 1 ∧ p < s.progLen

/-- The states a run reaches from `s`. -/
inductive Reaches : State → State → Prop where
  | refl (s : State) : Reaches s s
  | tail {s t u : State} (before : Reaches s t) (last : step t = .next u) : Reaches s u

/-- A safe run never enters Faulted. -/
def SafeFrom (s : State) : Prop := ∀ t e p, Reaches s t → t.run ≠ .faulted e p

end Sys2Proof.Machine
end

