-- ==== Sys2Proof/Certificates/Slice0/Obligations.lean ====
section
/-! DEFINITION. The statements for the provers, each with the rule of spec/ it formalises. "Stated" and "derived" are
OBLIGATIONS.json's words: a statement that rests on a decision of 92_eei_decisions.md (D1 to D30) or on an entry of the
assumption log is derived, and its docstring names it. -/

namespace Sys2Proof.Claims

open Sys2Proof.Machine

/-- `t` is `s` with one cell written: the cell reads `v`, every other cell reads as before, and nothing else changed. -/
def WritesCell (s t : State) (dest : Addr) (v : Word) : Prop :=
  t.memRead dest = v ∧ (∀ a : Nat, a ≠ uint dest → Memory.read t.mem a = Memory.read s.mem a)
    ∧ t = { s with mem := t.mem }

/-- `t` is `s` with one cell and X written, and nothing else changed. -/
def WritesCellAndX (s t : State) (dest : Addr) (v x : Word) : Prop :=
  t.memRead dest = v ∧ t.x = x ∧ (∀ a : Nat, a ≠ uint dest → Memory.read t.mem a = Memory.read s.mem a)
    ∧ t = { s with mem := t.mem, x := t.x }

/-- Five bytes `op sh sl dh dl`, whatever follows them, decode to the F5 instruction `mk src dest` (R52). -/
def EncodedF5 (op : Byte) (mk : Addr → Addr → Instr) : Prop :=
  ∀ (sh sl dh dl : Byte) (rest : List Byte),
    decodeOne (op :: sh :: sl :: dh :: dl :: rest) = .ok (mk (sh ++ sl) (dh ++ dl)) 5

/-- Three bytes `op fh fl`, whatever follows them, decode to the F3 instruction `mk F` (R51). -/
def EncodedF3 (op : Byte) (mk : BitVec 16 → Instr) : Prop :=
  ∀ (fh fl : Byte) (rest : List Byte), decodeOne (op :: fh :: fl :: rest) = .ok (mk (fh ++ fl)) 3

/-- The 237 bytes that are no opcode (R57). -/
abbrev Unassigned (op : Byte) : Prop :=
  (0x01 ≤ op.toNat ∧ op.toNat ≤ 0x0F) ∨ op.toNat = 0x1E ∨ op.toNat = 0x1F ∨ 0x24 ≤ op.toNat

/-- A jump by `o` of the instruction at `p` in a program of length `L` passes the bounds check (R86). -/
def InBounds (p L : Nat) (o : Int) : Prop := (o < 0 → 0 ≤ (p : Int) + o) ∧ (0 < o → (p : Int) + o ≤ (L : Int) - 1)

/-- The instruction is a two-operand ALU instruction or MFX (R15). -/
def IsAlu (i : Instr) : Prop := ∃ op src dest, i.decoded = .alu op src dest

/-- The instruction is a jump by `o` (R15). -/
def IsJump (i : Instr) (o : Offset) : Prop := ∃ c, i.decoded = .jump c o

/-- The bytes of the cells from `addr` to 65535, each cell's most significant byte first (R94). -/
def stringBytes (s : State) (addr : Addr) : List Byte :=
  (List.range' (uint addr) (65536 - uint addr)).flatMap fun c =>
    [(Memory.read s.mem c).extractLsb' 24 8, (Memory.read s.mem c).extractLsb' 16 8,
      (Memory.read s.mem c).extractLsb' 8 8, (Memory.read s.mem c).extractLsb' 0 8]

/-- The state in which a cycle executes its instruction: steps (1) and (2) of R99 done. -/
def executing (s : State) : State :=
  { s with pc := s.pc + 1, pending := none, hostCalls := s.hostCalls ++ s.pending.toList }

/-- The well-formed UTF-8 encoding of a code point below 110000 (hexadecimal), by its size. -/
def utf8Encode (n : Nat) : List Byte :=
  if n < 0x80 then [BitVec.ofNat 8 n]
  else if n < 0x800 then [BitVec.ofNat 8 (0xC0 + n / 64), BitVec.ofNat 8 (0x80 + n % 64)]
  else if n < 0x10000 then
    [BitVec.ofNat 8 (0xE0 + n / 4096), BitVec.ofNat 8 (0x80 + n / 64 % 64), BitVec.ofNat 8 (0x80 + n % 64)]
  else
    [BitVec.ofNat 8 (0xF0 + n / 262144), BitVec.ofNat 8 (0x80 + n / 4096 % 64), BitVec.ofNat 8 (0x80 + n / 64 % 64),
      BitVec.ofNat 8 (0x80 + n % 64)]

/-- One instruction of a stream read with the subroutine variant on (R62): a plain one, or a declaration's bytes with the
index and parameter count they declare and the body instruction that takes the declaration's slot. -/
inductive StreamItem where
  | plain (i : Instr)
  | declared (decl : List Byte) (index paramCount : Nat) (body : Instr)
  deriving DecidableEq, Repr

/-- What is left of an item when its declaration is removed: the instruction that goes into the program. -/
def StreamItem.instr : StreamItem → Instr
  | .plain i => i
  | .declared _ _ _ i => i

/-- An item's bytes: its declaration, if any, directly followed by its instruction's encoding. -/
def StreamItem.bytes : StreamItem → List Byte
  | .plain i => encode i
  | .declared decl _ _ i => decl ++ encode i

/-- The items' bytes in order, followed by `rest`. -/
def stream (items : List StreamItem) (rest : List Byte) : List Byte := items.flatMap StreamItem.bytes ++ rest

/-- The variant reads every declaration of the items, with all that follows it in the stream, as the item says. -/
def Reads (v : SubVariant) : List StreamItem → List Byte → Prop
  | [], _ => True
  | .plain _ :: items, rest => Reads v items rest
  | .declared decl k c i :: items, rest =>
    decl.head? = some v.opcode ∧ v.decode (decl ++ (encode i ++ stream items rest)) = some (k, c, decl.length)
      ∧ Reads v items rest

/-- The table rows of the items, the first of which stands at `line`: each declaration's index with the line of its body
instruction and its parameter count (R31, R62). -/
def rows : Nat → List StreamItem → List SubEntry
  | _, [] => []
  | line, .plain _ :: items => rows (line + 1) items
  | line, .declared _ k c _ :: items => ⟨k, line, c⟩ :: rows (line + 1) items

/-- The variant takes the items from the front of `stream items rest`, declarations with their bodies included, and no
index is declared twice. -/
def Accepts (v : SubVariant) (items : List StreamItem) (rest : List Byte) : Prop :=
  Reads v items rest ∧ ((rows 0 items).map (·.index)).Nodup

/-- `b` begins with a declaration of `k` with `c` parameters, `n` bytes long. -/
def Declares (v : SubVariant) (b : List Byte) (k c n : Nat) : Prop :=
  b.head? = some v.opcode ∧ v.decode b = some (k, c, n)

/-- The failures of R62 at the bytes `b`, when the table already holds `tab`. -/
inductive FailsAt (v : SubVariant) (tab : List SubEntry) (b : List Byte) : LoadError → Prop where
  /-- no declaration, and DecodeOne fails -/
  | plain {e} (noDecl : b.head? ≠ some v.opcode) (bad : decodeOne b = .err e) : FailsAt v tab b e
  /-- a declaration whose own decoding fails -/
  | operand (decl : b.head? = some v.opcode) (bad : v.decode b = none) : FailsAt v tab b .invalidSubroutineOperand
  /-- a declaration with no body, or followed by another (R63) -/
  | empty {k c n} (decl : Declares v b k c n) (bad : b.drop n = [] ∨ (b.drop n).head? = some v.opcode) :
      FailsAt v tab b .emptySubroutine
  /-- a declaration whose body instruction does not decode -/
  | body {k c n e} (decl : Declares v b k c n) (isBody : (b.drop n).head? ≠ some v.opcode)
      (bad : decodeOne (b.drop n) = .err e) : FailsAt v tab b e
  /-- a second declaration of an index (D30) -/
  | duplicate {k c n i m} (decl : Declares v b k c n) (isBody : decodeOne (b.drop n) = .ok i m)
      (again : k ∈ tab.map (·.index)) : FailsAt v tab b (.duplicateSubroutine k)

end Sys2Proof.Claims

open Sys2Proof Sys2Proof.Machine Sys2Proof.Claims

/-! ## The decoder and the loader (30_encoding.md) -/

/-- 30_encoding.md section 5, Enc and DecodeOne (the spec marks the rule derived): decoding an encoding gives the
instruction back whatever follows, and re-encoding what was decoded gives the bytes back. -/
def Obligations.DecodeAndEncodeAgree : Prop :=
  (∀ (i : Instr) (rest : List Byte), decodeOne (encode i ++ rest) = .ok i (encode i).length)
    ∧ (∀ (b : List Byte) (i : Instr) (n : Nat), decodeOne b = .ok i n → encode i ++ b.drop n = b)

/-- 30_encoding.md sections 1 and 5: a program's encodings load as that program, and only its encodings do. -/
def Obligations.LoadAndEncodeProgramAgree : Prop :=
  (∀ prog : List Instr, load (encodeProgram prog) = .ok prog [])
    ∧ (∀ (image : List Byte) (prog : List Instr) (subtab : List SubEntry),
        load image = .ok prog subtab → encodeProgram prog = image ∧ subtab = [])

/-- R57: the 237 unassigned bytes are UnknownOpcode with that byte, wherever one leads, and no other byte is; the
variant takes its declaration's opcode out of the set. -/
def Obligations.UnassignedOpcodesFailTheLoad : Prop :=
  (∀ op : Byte, Unassigned op → ∀ rest : List Byte,
      decodeOne (op :: rest) = .err (.unknownOpcode op)
        ∧ ∀ before : List Instr, load (encodeProgram before ++ op :: rest) = .error (.unknownOpcode op))
    ∧ (∀ op : Byte, ¬ Unassigned op → ∀ (rest : List Byte) (op' : Byte),
        decodeOne (op :: rest) ≠ .err (.unknownOpcode op'))
    ∧ ((List.range 256).filter fun k => Unassigned (BitVec.ofNat 8 k)).length = 237
    ∧ (∀ (v : SubVariant) (image : List Byte), loadImage (some v) image ≠ .error (.unknownOpcode v.opcode))

/-- R58: an instruction cut short fails the load with its family's error, and that error comes of nothing else. -/
def Obligations.TruncatedOperandsFailTheLoad : Prop :=
  (∀ (i : Instr) (k : Nat), 0 < k → k < i.size →
      decodeOne ((encode i).take k) = .err i.truncationError
        ∧ ∀ before : List Instr, load (encodeProgram before ++ (encode i).take k) = .error i.truncationError)
    ∧ (∀ (image : List Byte) (i : Instr), load image = .error i.truncationError →
        ∃ (before : List Instr) (j : Instr) (k : Nat), 0 < k ∧ k < j.size ∧ j.truncationError = i.truncationError
          ∧ image = encodeProgram before ++ (encode j).take k)

/-- 60_exceptions.md sections 2 and 4: a load fails at the first bad instruction of the stream, with DecodeOne's error
there, after instructions that all decoded. -/
def Obligations.LoadReportsTheFirstError : Prop :=
  ∀ (image : List Byte) (e : LoadError),
    load image = .error e ↔ ∃ (before : List Instr) (rest : List Byte),
      image = encodeProgram before ++ rest ∧ decodeOne rest = .err e

/-- 30_encoding.md section 1: NoOpcode is the end of the stream and nothing else; an empty image is the empty program. -/
def Obligations.NoOpcodeOnlyAtTheEnd : Prop :=
  (∀ b : List Byte, decodeOne b = .noOpcode ↔ b = []) ∧ load [] = .ok [] []

/-- Words written out from the tables of R51 to R55 and from the vectors of 95_test_vectors.md section 2.1. -/
def Obligations.SpecWordsDecodeAsWritten : Prop :=
  decodeOne [0x00, 0x12, 0x34] = .ok (.print 0x1234) 3
    ∧ decodeOne [0x10, 0x00, 0x00, 0x00, 0x2A, 0x00, 0x01] = .ok (.mov 42 1) 7
    ∧ decodeOne [0x13, 0x00, 0x02, 0x01, 0x00] = .ok (.sub 2 256) 5
    ∧ decodeOne [0x1D, 0x00, 0x01, 0x12, 0x00, 0x00, 0x00, 0x01] = .ok (.mfx 1) 3
    ∧ decodeOne [0x22, 0xFF, 0xFE] = .ok (.jle (-2)) 3
    ∧ decodeTableWord 40 0x1B00010000 = some (.mul 1 0)

/-- R63: with the variant on, a load fails with EmptySubroutine exactly at a declaration that ends the stream or is
directly followed by another, after anything the variant accepts, earlier declarations with their bodies included. -/
def Obligations.EmptySubroutineFailsTheLoad : Prop :=
  ∀ (v : SubVariant), Unassigned v.opcode → ∀ image : List Byte,
    loadImage (some v) image = .error .emptySubroutine ↔
      ∃ (items : List StreamItem) (bad : List Byte) (k c n : Nat), image = stream items bad ∧ Accepts v items bad
        ∧ Declares v bad k c n ∧ (bad.drop n = [] ∨ (bad.drop n).head? = some v.opcode)

/-- 30_encoding.md section 6 (R62, decision D14): with the variant on, an image loads exactly when it is instructions
with declarations before some of them. Its program is those instructions with the declarations removed, its table has
the row (k, index of the body instruction, c) for each declaration and no other, and the image without the declarations
loads as the same program. A second declaration of k fails with DuplicateSubroutine(k) (D30). So an image without
declarations loads as it does with the variant off, and each row names an instruction of the program, no index twice. -/
def Obligations.SubroutineVariantIsTransparent : Prop :=
  (∀ (v : SubVariant), Unassigned v.opcode → ∀ (image : List Byte) (prog : List Instr) (subtab : List SubEntry),
      loadImage (some v) image = .ok prog subtab ↔
        ∃ items : List StreamItem, image = stream items [] ∧ Accepts v items []
          ∧ prog = items.map StreamItem.instr ∧ subtab = rows 0 items)
    ∧ (∀ (v : SubVariant) (items : List StreamItem), Unassigned v.opcode → Accepts v items [] →
        load (items.flatMap fun item => encode item.instr) = .ok (items.map StreamItem.instr) [])
    ∧ (∀ (v : SubVariant), Unassigned v.opcode → ∀ (items : List StreamItem) (decl : List Byte) (k c : Nat) (i : Instr)
        (rest : List Byte), Accepts v items (decl ++ encode i ++ rest) →
          Declares v (decl ++ encode i ++ rest) k c decl.length → k ∈ (rows 0 items).map (·.index) →
          loadImage (some v) (stream items (decl ++ encode i ++ rest)) = .error (.duplicateSubroutine k))
    ∧ (∀ (v : SubVariant) (image : List Byte) (prog : List Instr), Unassigned v.opcode →
        load image = .ok prog [] → loadImage (some v) image = .ok prog [])
    ∧ (∀ (v : SubVariant) (image : List Byte) (prog : List Instr) (subtab : List SubEntry),
        loadImage (some v) image = .ok prog subtab →
          (∀ row ∈ subtab, row.entryLine < prog.length) ∧ (subtab.map (·.index)).Nodup)

/-! ## Reset and the invariant (10_state.md, 70_reset_and_hazards.md) -/

/-- 70_reset_and_hazards.md section 1, every row of its table (R125), for the reset state of any loaded program. The
clause `hostCalls = []` is no row of that table: it is the model's own choice for its own record (log entry 8, DESIGN
CHOICE). -/
def Obligations.ResetStateIsZeroAndReady : Prop :=
  (∀ (image : List Byte) (prog : List Instr) (subtab : List SubEntry), load image = .ok prog subtab →
      ∃ s, boot image = .ready s ∧ (∀ a : Nat, Memory.read s.mem a = 0) ∧ s.st = 0x00 ∧ s.x = 0 ∧ s.pc = 0
        ∧ s.progLen = prog.length ∧ s.prog = prog ∧ s.pending = none ∧ s.run = .ready ∧ s.subtab = []
        ∧ s.frames = [] ∧ s.hostCalls = [])
    ∧ boot [] = .ready State.reset

/-- 10_state.md and 70_reset_and_hazards.md section 1: the invariant holds at reset, with no program and with any that
loads. -/
def Obligations.ResetMeetsTheInvariant : Prop :=
  State.reset.Inv ∧ ∀ (image : List Byte) (s : State), boot image = .ready s → s.Inv

/-- The headline: every step keeps the invariant, from every state that meets it. Memory stays in canonical form, ST one
of its three values, pc in [0, L], the subroutine table and the call-frame stack empty, the slot empty outside Running, and Ready, Halted and
Faulted(e, p) what they say (R17, R22, R26, R29, R31, R32, R105, R107; D14, D16, D21). -/
def Obligations.StepKeepsTheInvariant : Prop :=
  ∀ s t : State, s.Inv → step s = .next t → t.Inv

/-- 93_implementation_defined.md section 2: a Running machine always has a step ("it has one agent, which always has an
enabled step while Running"). The Ready half is the model's choice: a step in Ready is the host's `run` command, which
44_fetch_execute.md section 1 accepts there (log entry 5, DESIGN CHOICE). -/
def Obligations.RunningMachineNeverSticks : Prop :=
  ∀ s : State, s.Inv → s.run = .ready ∨ s.run = .running → ∃ t, step s = .next t

/-! ## The loop controller (44_fetch_execute.md) -/

/-- 44_fetch_execute.md section 2: in a Running machine the step is exec of the instruction at pc, in the state with the
slot delivered and pc advanced, and the instruction at pc is the one the image's bytes decode to (30_encoding.md section
1). The last clause is about the model's own placing of a table word, which no rule of the spec gives: `withFetchWord`
(log entry 13, DESIGN CHOICE) and the numbering of `decodeTableWord` (log entry 12, DEDUCED). -/
def Obligations.StepRunsTheDecodedInstruction : Prop :=
  (∀ (s : State) (i : Instr), s.run = .running → s.prog[s.pc]? = some i → step s = exec i (executing s))
    ∧ (∀ (before : List Instr) (b : List Byte) (i : Instr) (n : Nat) (prog : List Instr) (subtab : List SubEntry),
        decodeOne b = .ok i n → load (encodeProgram before ++ b) = .ok prog subtab →
          prog[before.length]? = some i)
    ∧ (∀ (s : State) (nbits w : Nat) (i : Instr), decodeTableWord nbits w = some i →
        (s.withFetchWord nbits w).pc = s.pc
          ∧ step (s.withFetchWord nbits w) = exec i (executing (s.withFetchWord nbits w)))

/-- 44_fetch_execute.md section 4 (FINAL_DRAIN, D13, both values): a cycle that starts with pc = L halts, and memory, ST
and X keep their values. -/
def Obligations.CycleAtTheEndHalts : Prop :=
  ∀ s : State, s.run = .running → s.pc = s.progLen →
    ∃ t, step s = .next t ∧ t.run = .halted ∧ t.pc = t.progLen ∧ t.pending = none
      ∧ t = { s with run := .halted, pending := none, hostCalls := t.hostCalls }
      ∧ (Config.finalDrain = .deliver → t.hostCalls = s.hostCalls ++ s.pending.toList)
      ∧ (Config.finalDrain = .drop → t.hostCalls = s.hostCalls)

/-- 44_fetch_execute.md section 1 (D24): the run state moves along the four arrows alone; `run` is accepted in Ready
alone and changes the run state alone; Halted and Faulted have no step (log entries 5 and 6). -/
def Obligations.RunStateMovesAlongItsArrows : Prop :=
  (∀ s t : State, step s = .next t →
      (s.run = .ready ∧ t = { s with run := .running })
        ∨ (s.run = .running ∧ s.pc ≠ s.progLen ∧ t.run = .running)
        ∨ (s.run = .running ∧ s.pc = s.progLen ∧ t.run = .halted)
        ∨ (s.run = .running ∧ s.pc ≠ s.progLen ∧ ∃ e, t.run = .faulted e s.pc))
    ∧ (∀ s : State, s.run = .ready → s.runCommand = .accepted { s with run := .running })
    ∧ (∀ s : State, s.run ≠ .ready → s.runCommand = .refused)
    ∧ (∀ s : State, s.run = .halted → step s = .refused .halted)
    ∧ (∀ (s : State) (e : RunError) (p : Nat), s.run = .faulted e p → step s = .fault (.runError e p))

/-- 44_fetch_execute.md section 3: a pending request is delivered once, by the next cycle, before the instruction of that cycle; the slot is then
empty, or holds the request of the PRINT that the cycle executed; a cycle that faults leaves it empty; at the end FINAL_DRAIN
(D13) decides. -/
def Obligations.RequestsAreDeliveredOnceInOrder : Prop :=
  ∀ s t : State, s.run = .running → step s = .next t →
    (s.pc ≠ s.progLen →
      t.hostCalls = s.hostCalls ++ s.pending.toList
        ∧ (t.pending = none ∨ ∃ (a : Addr) (buf : List Byte),
            s.prog[s.pc]? = some (.print a) ∧ s.cString a = some buf ∧ t.pending = some (.print buf))
        ∧ (∀ e p, t.run = .faulted e p → t.pending = none))
      ∧ (s.pc = s.progLen → t.pending = none
          ∧ t.hostCalls = if Config.finalDrain = .deliver then s.hostCalls ++ s.pending.toList else s.hostCalls)

/-- R28: the program is never changed, and an instruction neither writes it nor reads more of it than its length. -/
def Obligations.ProgramIsImmutableAndUnread : Prop :=
  (∀ s t : State, step s = .next t → t.prog = s.prog ∧ t.progLen = s.progLen)
    ∧ (∀ (i : Instr) (s : State), ∃ t, exec i s = .next t ∧ t.prog = s.prog
        ∧ ∀ other : List Instr, other.length = s.prog.length →
            exec i { s with prog := other } = .next { t with prog := other })

/-- R27: a cycle leaves pc at p + 1, or at the bounds-checked target of the jump it executed, in [1, L]; a cycle at the
end, and `run`, leave pc; reset sets it to 0. pc = p + 1 while the instruction executes. -/
def Obligations.PcMovesInThreeWays : Prop :=
  (∀ s t : State, step s = .next t →
      t.pc = s.pc ∧ (s.run = .ready ∨ s.pc = s.progLen)
        ∨ s.pc < s.progLen ∧ t.pc = s.pc + 1
        ∨ s.pc < s.progLen ∧ ∃ (i : Instr) (o : Offset), s.prog[s.pc]? = some i ∧ IsJump i o
            ∧ (t.pc : Int) = (s.pc : Int) + 1 + sint o ∧ 1 ≤ t.pc ∧ t.pc ≤ s.progLen)
    ∧ (∀ (s : State) (i : Instr), s.run = .running → s.prog[s.pc]? = some i →
        ∃ u : State, u.pc = s.pc + 1 ∧ step s = exec i u)
    ∧ State.reset.pc = 0 ∧ (∀ image s, boot image = .ready s → s.pc = 0)

/-- 44_fetch_execute.md section 4 ("there is no watchdog") with the corner case of JMP −1 (D11): a jump to itself runs
forever, however many steps are taken. -/
def Obligations.SelfJumpNeverEnds : Prop :=
  ∀ (s : State) (k : Nat), s.run = .running → s.pending = none → 1 ≤ s.pc →
    s.prog[s.pc]? = some (.jmp (-1)) → Sys2Proof.core.run k s = .next s

/-! ## Faults (60_exceptions.md) -/

/-- R113: an instruction at p that raises e leaves Faulted(e, p) and changes nothing else, pc staying p + 1; the status
output reports e, its code and p, and the run is over. -/
def Obligations.FaultEntrySavesNothingElse : Prop :=
  ∀ (i : Instr) (s t : State) (p : Nat) (e : RunError) (q : Nat),
    s.run = .running → s.pc = p + 1 → exec i s = .next t → t.run = .faulted e q →
      q = p ∧ t = { s with run := .faulted e p } ∧ t.pc = p + 1 ∧ t.status = ⟨.faulted e p, some e.code⟩
        ∧ ∀ u, step t ≠ .next u

/-- 60_exceptions.md section 3 (D8, D10 to D12): which instruction raises which error, with which data; no other
instruction raises one. -/
def Obligations.EachErrorHasItsCause : Prop :=
  ∀ (i : Instr) (s : State) (p : Nat) (e : RunError) (q : Nat), s.run = .running → s.pc = p + 1 →
    ((∃ t, exec i s = .next t ∧ t.run = .faulted e q) ↔
      q = p ∧
        ((∃ o, IsJump i o ∧ e = .invalidNegativeOffset (sint o) ∧ sint o < 0 ∧ (p : Int) + sint o < 0)
          ∨ (∃ o, IsJump i o ∧ e = .invalidPositiveOffset (sint o) ∧ 0 < sint o
              ∧ (s.progLen : Int) - 1 < (p : Int) + sint o)
          ∨ (∃ src dest, i = .div src dest ∧ e = .divisionByZero src dest ∧ s.memRead src = 0)
          ∨ (∃ src dest, i = .div src dest ∧ e = .divideOverflow src dest ∧ s.memRead dest = 0x80000000
              ∧ s.memRead src = 0xFFFFFFFF)
          ∨ (∃ a, i = .print a ∧ e = .unterminatedString a ∧ 0x00#8 ∉ stringBytes s a)))

/-! ## Who writes and reads what (10_state.md) -/

/-- R22: only CMP writes Z and N, by instruction and by step; each CMP leaves at most one of them set; they
are never both set by a step; reset has neither. -/
def Obligations.OnlyCmpWritesTheFlags : Prop :=
  (∀ (i : Instr) (s t : State), exec i s = .next t → (∀ src dest, i ≠ .cmp src dest) → t.st = s.st)
    ∧ (∀ s t : State, step s = .next t → (∀ src dest, s.prog[s.pc]? ≠ some (.cmp src dest)) → t.st = s.st)
    ∧ (∀ (src dest : Addr) (s : State), ∃ t, exec (.cmp src dest) s = .next t ∧ ¬ (t.flagZ = true ∧ t.flagN = true))
    ∧ (∀ s t : State, ¬ (s.flagZ = true ∧ s.flagN = true) → step s = .next t → ¬ (t.flagZ = true ∧ t.flagN = true))
    ∧ State.reset.st = 0x00

/-- 10_state.md section 5 (with D15, no cell aliases X): only MUL and DIV write X, and only MFX reads it: every other
instruction does the same whatever X holds. -/
def Obligations.OnlyMulAndDivWriteXOnlyMfxReadsIt : Prop :=
  (∀ (i : Instr) (s t : State), exec i s = .next t → (∀ src dest, i ≠ .mul src dest ∧ i ≠ .div src dest) → t.x = s.x)
    ∧ (∀ (i : Instr) (s : State) (v : Word), (∀ dest, i ≠ .mfx dest) →
        ∃ t t', exec i s = .next t ∧ exec i { s with x := v } = .next t' ∧ { t' with x := t.x } = t)

/-- R69: the side effects of the Alu family. -/
def Obligations.AluSideEffects : Prop :=
  ∀ (i : Instr) (s : State), IsAlu i →
    ∃ t, exec i s = .next t
      ∧ (t.st ≠ s.st → ∃ src dest, i = .cmp src dest)
      ∧ (t.x ≠ s.x → ∃ src dest, i = .mul src dest ∨ i = .div src dest)
      ∧ (∀ src dest, i = .cmp src dest → i.writes = none ∧ t.mem = s.mem)
      ∧ ((∀ src dest, i ≠ .cmp src dest) → ∃ dest, i.writes = some dest
          ∧ ∀ a : Nat, a ≠ uint dest → Memory.read t.mem a = Memory.read s.mem a)
      ∧ t.pc = s.pc
      ∧ (t.run ≠ s.run → ∃ src dest, i = .div src dest)
      ∧ t.pending = s.pending ∧ t.prog = s.prog ∧ t.hostCalls = s.hostCalls ∧ t.subtab = s.subtab
      ∧ t.frames = s.frames

/-- The frame of the other families (40_mov.md, 42_jump.md section 1, 43_syscall.md): MOV changes memory alone, a jump
pc or the run state alone, PRINT the slot or the run state alone, and the last two leave every cell. -/
def Obligations.FrameOfMovJumpAndPrint : Prop :=
  (∀ (lit : Word) (dest : Addr) (s t : State), exec (.mov lit dest) s = .next t → t = { s with mem := t.mem }
      ∧ ∀ a : Nat, a ≠ uint dest → Memory.read t.mem a = Memory.read s.mem a)
    ∧ (∀ (i : Instr) (o : Offset) (s t : State), IsJump i o → exec i s = .next t →
        t = { s with pc := t.pc, run := t.run } ∧ (t.pc = s.pc ∨ t.run = s.run)
          ∧ ∀ a : Nat, Memory.read t.mem a = Memory.read s.mem a)
    ∧ (∀ (addr : Addr) (s t : State), exec (.print addr) s = .next t →
        t = { s with pending := t.pending, run := t.run } ∧ (t.pending = s.pending ∨ t.run = s.run)
          ∧ ∀ a : Nat, Memory.read t.mem a = Memory.read s.mem a)

/-! ## The instructions' results (40_mov.md to 43_syscall.md). Each concludes that exec answers a next state. -/

/-- R67. -/
def Obligations.MovStoresItsLiteral : Prop :=
  (∀ (b1 b2 b3 b4 dh dl : Byte) (rest : List Byte),
      decodeOne (0x10#8 :: b1 :: b2 :: b3 :: b4 :: dh :: dl :: rest)
        = .ok (.mov (b1 ++ b2 ++ b3 ++ b4 : BitVec (8 + 8 + 8 + 8)) (dh ++ dl)) 7)
    ∧ ∀ (lit : Word) (dest : Addr) (s : State), ∃ t, exec (.mov lit dest) s = .next t ∧ WritesCell s t dest lit

/-- R71. -/
def Obligations.AssignCopiesTheSourceCell : Prop :=
  EncodedF5 0x11#8 .assign
    ∧ ∀ (src dest : Addr) (s : State), ∃ t, exec (.assign src dest) s = .next t ∧ WritesCell s t dest (s.memRead src)

/-- R72, R73, R74. -/
def Obligations.BitwiseOperationsCombineBothCells : Prop :=
  (EncodedF5 0x14#8 .and ∧ ∀ (src dest : Addr) (s : State), ∃ t, exec (.and src dest) s = .next t
      ∧ WritesCell s t dest (s.memRead dest &&& s.memRead src))
    ∧ (EncodedF5 0x15#8 .or ∧ ∀ (src dest : Addr) (s : State), ∃ t, exec (.or src dest) s = .next t
      ∧ WritesCell s t dest (s.memRead dest ||| s.memRead src))
    ∧ (EncodedF5 0x16#8 .xor ∧ ∀ (src dest : Addr) (s : State), ∃ t, exec (.xor src dest) s = .next t
      ∧ WritesCell s t dest (s.memRead dest ^^^ s.memRead src))

/-- R75: dest is the wrapped sum, the value of both readings; no flag, no error. -/
def Obligations.AddWraps : Prop :=
  EncodedF5 0x12#8 .add
    ∧ ∀ (src dest : Addr) (s : State), ∃ t, exec (.add src dest) s = .next t
        ∧ WritesCell s t dest (s.memRead dest + s.memRead src)
        ∧ sint (t.memRead dest) = (sint (s.memRead dest) + sint (s.memRead src)).bmod (2 ^ 32)
        ∧ uint (t.memRead dest) = (uint (s.memRead dest) + uint (s.memRead src)) % 2 ^ 32

/-- 41_alu.md section 3, SUB (operand order by D27): dest − src, wrapped. -/
def Obligations.SubWrapsDestMinusSource : Prop :=
  EncodedF5 0x13#8 .sub
    ∧ ∀ (src dest : Addr) (s : State), ∃ t, exec (.sub src dest) s = .next t
        ∧ WritesCell s t dest (s.memRead dest - s.memRead src)
        ∧ sint (t.memRead dest) = (sint (s.memRead dest) - sint (s.memRead src)).bmod (2 ^ 32)

/-- 41_alu.md section 3, CMP (overflow by D4): Z exactly when the cells are equal, N by the sign of the wrapped
difference dest − src, which is the signed comparison where the exact difference fits; bits 7:2 and all else stay. -/
def Obligations.CmpSetsZAndN : Prop :=
  EncodedF5 0x17#8 .cmp
    ∧ ∀ (src dest : Addr) (s : State), ∃ t, exec (.cmp src dest) s = .next t
        ∧ t = { s with st := t.st }
        ∧ (t.st.getLsbD 0 = true ↔ s.memRead dest = s.memRead src)
        ∧ (t.st.getLsbD 1 = true ↔ (sint (s.memRead dest) - sint (s.memRead src)).bmod (2 ^ 32) < 0)
        ∧ (-2 ^ 31 ≤ sint (s.memRead dest) - sint (s.memRead src) →
            sint (s.memRead dest) - sint (s.memRead src) < 2 ^ 31 →
            (t.st.getLsbD 1 = true ↔ sint (s.memRead dest) < sint (s.memRead src)))
        ∧ (∀ k, 2 ≤ k → t.st.getLsbD k = s.st.getLsbD k)

/-- 41_alu.md section 4 (five-bit amount by D5): the three shifts of dest by the low five bits of src. -/
def Obligations.ShiftsUseTheLowFiveBits : Prop :=
  (EncodedF5 0x18#8 .shl ∧ ∀ (src dest : Addr) (s : State), ∃ t, exec (.shl src dest) s = .next t
      ∧ WritesCell s t dest (s.memRead dest <<< (uint (s.memRead src) % 32)))
    ∧ (EncodedF5 0x19#8 .shr ∧ ∀ (src dest : Addr) (s : State), ∃ t, exec (.shr src dest) s = .next t
      ∧ WritesCell s t dest (s.memRead dest >>> (uint (s.memRead src) % 32)))
    ∧ (EncodedF5 0x1A#8 .sar ∧ ∀ (src dest : Addr) (s : State), ∃ t, exec (.sar src dest) s = .next t
      ∧ WritesCell s t dest ((s.memRead dest).sshiftRight (uint (s.memRead src) % 32)))

/-- 41_alu.md section 5, MUL (signed by D6): dest and X together are the exact signed product. -/
def Obligations.MulSplitsTheExactProduct : Prop :=
  EncodedF5 0x1B#8 .mul
    ∧ ∀ (src dest : Addr) (s : State), ∃ (t : State) (low high : Word), exec (.mul src dest) s = .next t
        ∧ WritesCellAndX s t dest low high
        ∧ low = s.memRead dest * s.memRead src
        ∧ sint high * 2 ^ 32 + uint low = sint (s.memRead dest) * sint (s.memRead src)

/-- 41_alu.md section 5, DIV (rounding by D7, operand roles by D27, no overflow by D8): the quotient to dest and the
remainder to X, with dividend = quotient × divisor + remainder, the remainder smaller than the divisor and of the
dividend's sign. -/
def Obligations.DivGivesQuotientAndRemainder : Prop :=
  EncodedF5 0x1C#8 .div
    ∧ ∀ (src dest : Addr) (s : State), s.memRead src ≠ 0 →
        ¬ (s.memRead dest = 0x80000000 ∧ s.memRead src = 0xFFFFFFFF) →
        ∃ (t : State) (q r : Word), exec (.div src dest) s = .next t ∧ WritesCellAndX s t dest q r
          ∧ sint q * sint (s.memRead src) + sint r = sint (s.memRead dest)
          ∧ |sint r| < |sint (s.memRead src)|
          ∧ (sint r = 0 ∨ (0 < sint r ↔ 0 < sint (s.memRead dest)))

/-- 41_alu.md section 5, DIV's errors (D8, D9): a zero divisor raises DivisionByZero and −2^31 ÷ −1 raises
DivideOverflow, each before any write. -/
def Obligations.DivErrorsWriteNothing : Prop :=
  ∀ (src dest : Addr) (s : State) (p : Nat), s.pc = p + 1 →
    (s.memRead src = 0 →
        exec (.div src dest) s = .next { s with run := .faulted (.divisionByZero src dest) p })
      ∧ (s.memRead dest = 0x80000000 → s.memRead src = 0xFFFFFFFF →
        exec (.div src dest) s = .next { s with run := .faulted (.divideOverflow src dest) p })

/-- 41_alu.md section 6, MFX (opcode by D1, ExtraX by D15): X to dest; X is read, not cleared. -/
def Obligations.MfxCopiesX : Prop :=
  EncodedF3 0x1D#8 .mfx
    ∧ ∀ (dest : Addr) (s : State), ∃ t, exec (.mfx dest) s = .next t ∧ WritesCell s t dest s.x ∧ t.x = s.x

/-- 42_jump.md sections 1 and 2, JMP (bounds by D11): from p in [0, L) to p + 1 + o in [1, L], changing pc alone. -/
def Obligations.JmpLandsOnItsTarget : Prop :=
  EncodedF3 0x20#8 .jmp
    ∧ ∀ (o : Offset) (s : State) (p : Nat), s.pc = p + 1 → p < s.progLen → InBounds p s.progLen (sint o) →
        ∃ target : Nat, (target : Int) = p + 1 + sint o ∧ 1 ≤ target ∧ target ≤ s.progLen
          ∧ exec (.jmp o) s = .next { s with pc := target }

/-- 42_jump.md sections 1 and 2, JN, JLE and JZ (bounds by D11): taken by N, by N or Z, and by Z; otherwise pc stays
p + 1. -/
def Obligations.ConditionalJumpsFollowTheFlags : Prop :=
  EncodedF3 0x21#8 .jn ∧ EncodedF3 0x22#8 .jle ∧ EncodedF3 0x23#8 .jz
    ∧ ∀ (o : Offset) (s : State) (p : Nat), s.pc = p + 1 → p < s.progLen → InBounds p s.progLen (sint o) →
        ∃ target : Nat, (target : Int) = p + 1 + sint o ∧ 1 ≤ target ∧ target ≤ s.progLen
          ∧ exec (.jn o) s = .next { s with pc := if s.st.getLsbD 1 then target else p + 1 }
          ∧ exec (.jle o) s = .next { s with pc := if s.st.getLsbD 1 || s.st.getLsbD 0 then target else p + 1 }
          ∧ exec (.jz o) s = .next { s with pc := if s.st.getLsbD 0 then target else p + 1 }

/-- 42_jump.md section 1 (D10, D11): a jump out of bounds raises its error before any change, whether or not its
condition holds. -/
def Obligations.JumpOutOfBoundsFaultsTakenOrNot : Prop :=
  ∀ (i : Instr) (o : Offset) (s : State) (p : Nat), IsJump i o → s.pc = p + 1 →
    (sint o < 0 → (p : Int) + sint o < 0 →
        exec i s = .next { s with run := .faulted (.invalidNegativeOffset (sint o)) p })
      ∧ (0 < sint o → (s.progLen : Int) - 1 < (p : Int) + sint o →
        exec i s = .next { s with run := .faulted (.invalidPositiveOffset (sint o)) p })

/-- 30_encoding.md section 7 (D20) and 42_jump.md: JMP 0, the assembler's NOP, changes nothing but the pc the cycle
advanced. -/
def Obligations.JmpZeroIsNop : Prop :=
  encode (.jmp 0) = [0x20, 0x00, 0x00]
    ∧ (∀ s : State, exec (.jmp 0) s = .next s)
    ∧ ∀ s : State, s.run = .running → s.pending = none → s.prog[s.pc]? = some (.jmp 0) →
        step s = .next { s with pc := s.pc + 1 }

/-- 43_syscall.md (D12; that the request holds the bytes, and not their string, is log entry 1, DESIGN CHOICE, which R95
and D23 allow): PRINT leaves the bytes before the first zero byte of the cells from addr on, most significant
byte first, across cells; with no zero byte up to cell 65535 it raises UnterminatedString and leaves the slot. -/
def Obligations.PrintRequestsTheStringAtAddr : Prop :=
  EncodedF3 0x00#8 .print
    ∧ ∀ (addr : Addr) (s : State) (p : Nat), s.pc = p + 1 →
        (0x00#8 ∈ stringBytes s addr →
            exec (.print addr) s
              = .next { s with pending := some (.print ((stringBytes s addr).takeWhile (· != 0x00#8))) })
          ∧ (0x00#8 ∉ stringBytes s addr →
            exec (.print addr) s = .next { s with run := .faulted (.unterminatedString addr) p })

/-! ## Host side (00_scope.md section 4, 43_syscall.md) -/

/-- 00_scope.md section 4 (D22, D29): the debug port answers the cells of the range, one by one, outside a run, and
refuses a range past cell 65535 and any range while Running. -/
def Obligations.DebugPortReadsCellsOutsideARun : Prop :=
  ∀ (s : State) (a n : Nat),
    (s.run ≠ .running → a + n ≤ 65536 →
        ∃ cells, s.debugRead a n = .accepted cells ∧ cells.length = n
          ∧ ∀ k, k < n → cells[k]? = some (Memory.read s.mem (a + k)))
      ∧ (s.run ≠ .running → 65536 < a + n → s.debugRead a n = .refused)
      ∧ (s.run = .running → s.debugRead a n = .refused)

/-- 43_syscall.md (PRESUMED, the spec's general knowledge, log entry 2): the string of a request whose bytes are
well-formed UTF-8 is the code points they encode. -/
def Obligations.WellFormedUtf8DecodesToItsCodePoints : Prop :=
  ∀ chars : List Char, (Request.print (chars.flatMap fun c => utf8Encode c.toNat)).text = chars

/-- 43_syscall.md: PRINT's buffer never holds the byte 00, and so (PRESUMED table, log entry 2) its string never holds
U+0000. -/
def Obligations.PrintedStringHasNoNul : Prop :=
  (∀ (addr : Addr) (s : State) (buf : List Byte), s.cString addr = some buf → 0x00#8 ∉ buf)
    ∧ (∀ buf : List Byte, 0x00#8 ∉ buf → Char.ofNat 0 ∉ (Request.print buf).text)

/-! ## The subroutine variant's failures, and its table at run time (30_encoding.md section 6, 10_state.md section 10) -/

/-- 30_encoding.md section 6 (R62, decisions D14 and D30): with the variant on, a load fails exactly at the first bytes
where R62's loop fails, after anything the variant accepts, and with that error. -/
def Obligations.VariantLoadReportsTheFirstError : Prop :=
  ∀ (v : SubVariant), Unassigned v.opcode → ∀ (image : List Byte) (e : LoadError),
    loadImage (some v) image = .error e ↔
      ∃ (items : List StreamItem) (rest : List Byte), image = stream items rest ∧ Accepts v items rest
        ∧ FailsAt v (rows 0 items) rest e

/-- 10_state.md section 10: no instruction reads the subroutine table, so its contents cannot affect a run; nor does a
step change it. -/
def Obligations.SubroutineTableCannotAffectARun : Prop :=
  (∀ s t : State, step s = .next t → t.subtab = s.subtab)
    ∧ (∀ (s t : State) (tab : List SubEntry), step s = .next t →
        step { s with subtab := tab } = .next { t with subtab := tab })
    ∧ (∀ (i : Instr) (s : State) (tab : List SubEntry), ∃ t, exec i s = .next t ∧ t.subtab = s.subtab
        ∧ exec i { s with subtab := tab } = .next { t with subtab := tab })
end

