-- ==== Sys2Proof/Laws/Decode.lean ====
section
/-! SUPPORT. Field assembly, the opcode map and DecodeOne, each said once. -/

namespace Sys2Proof

@[simp] theorem be16_extract (v : BitVec 16) : be16 (v.extractLsb' 8 8) (v.extractLsb' 0 8) = v := by
  apply BitVec.eq_of_getLsbD_eq
  intro i hi
  simp only [be16, BitVec.getLsbD_append, BitVec.getLsbD_extractLsb']
  by_cases h : i < 8
  · simp [h]
  · have : 8 + (i - 8) = i := by omega
    have h8 : i - 8 < 8 := by omega
    simp [h, this, h8]

@[simp] theorem extract_be16_hi (a b : Byte) : (be16 a b).extractLsb' 8 8 = a := by
  apply BitVec.eq_of_getLsbD_eq
  intro i hi
  simp only [be16, BitVec.getLsbD_append, BitVec.getLsbD_extractLsb']
  have h : ¬ 8 + i < 8 := by omega
  simp [h, hi]

@[simp] theorem extract_be16_lo (a b : Byte) : (be16 a b).extractLsb' 0 8 = b := by
  apply BitVec.eq_of_getLsbD_eq
  intro i hi
  simp only [be16, BitVec.getLsbD_append, BitVec.getLsbD_extractLsb']
  simp [hi]

theorem be32_bit (a b c d : Byte) (i : Nat) :
    (be32 a b c d).getLsbD i =
      if i < 8 then d.getLsbD i else if i < 16 then c.getLsbD (i - 8)
        else if i < 24 then b.getLsbD (i - 16) else a.getLsbD (i - 24) := by
  simp only [be32, BitVec.getLsbD_append]
  repeat' split
  all_goals first
    | rfl
    | omega

@[simp] theorem be32_extract (v : Word) :
    be32 (v.extractLsb' 24 8) (v.extractLsb' 16 8) (v.extractLsb' 8 8) (v.extractLsb' 0 8) = v := by
  apply BitVec.eq_of_getLsbD_eq
  intro i hi
  rw [be32_bit]
  simp only [BitVec.getLsbD_extractLsb']
  repeat' split
  · simp_all
  all_goals
    rw [decide_eq_true (by omega), Bool.true_and]
    congr 1
    omega

@[simp] theorem bytes32_be32 (a b c d : Byte) : bytes32 (be32 a b c d) = [a, b, c, d] := by
  simp only [bytes32, List.cons.injEq, and_true]
  refine ⟨?_, ?_, ?_, ?_⟩ <;>
  · apply BitVec.eq_of_getLsbD_eq
    intro i hi
    rw [BitVec.getLsbD_extractLsb', be32_bit, decide_eq_true hi, Bool.true_and]
    repeat' split
    all_goals first
      | omega
      | (congr 1; omega)

@[simp] theorem bytes16_be16 (a b : Byte) : bytes16 (be16 a b) = [a, b] := by
  simp [bytes16]

@[simp] theorem bytes16_length (v : BitVec 16) : (bytes16 v).length = 2 := rfl
@[simp] theorem bytes32_length (v : Word) : (bytes32 v).length = 4 := rfl

/-- Every instruction is well formed: its fields hold exactly what the encoding admits (R54, R59). -/
theorem wellFormed_instr (i : Instr) : i.wellFormed = true := by
  cases i <;> rfl

/-- The well-formed decoded values are the ones that are some instruction's (R61). -/
theorem wellFormed_iff_instr (d : Decoded) : d.wellFormed = true ↔ ∃ i : Instr, i.decoded = d := by
  constructor
  · intro h
    cases d with
    | print a => exact ⟨.print a, rfl⟩
    | mov l a => exact ⟨.mov l a, rfl⟩
    | jump c o => cases c <;> [exact ⟨.jmp o, rfl⟩; exact ⟨.jn o, rfl⟩; exact ⟨.jle o, rfl⟩; exact ⟨.jz o, rfl⟩]
    | alu op src d =>
      cases src with
      | cell s => exact ⟨Instr.ofAlu op s d, by cases op <;> rfl⟩
      | extraX =>
        have : op = .assign := by simpa [Decoded.wellFormed] using h
        exact ⟨.mfx d, by rw [this]; rfl⟩
  · rintro ⟨i, rfl⟩
    exact wellFormed_instr i

/-- Reading the spec's decoded value back gives the instruction. -/
theorem instr_decoded (i : Instr) : i.decoded.instr? = some i := by
  cases i <;> rfl

/-- An encoding is never empty: it begins with an opcode. -/
theorem encode_ne_nil (i : Instr) : encode i ≠ [] := by
  cases i <;> exact List.cons_ne_nil _ _

/-- No instruction is shorter than three bytes (R50). -/
theorem Instr.three_le_size (i : Instr) : 3 ≤ i.size := by
  cases i <;> simp [Instr.size]

@[simp] theorem encodeProgram_nil : encodeProgram [] = [] := rfl
@[simp] theorem encodeProgram_cons (i : Instr) (is : List Instr) :
    encodeProgram (i :: is) = encode i ++ encodeProgram is := rfl
theorem encodeProgram_append (is js : List Instr) :
    encodeProgram (is ++ js) = encodeProgram is ++ encodeProgram js := by
  simp [encodeProgram]

/-! The load loop of the variant (R62), one pass at a time. -/

/-- A pass over an instruction that no declaration precedes. -/
theorem loadSubLoop_plain (v : SubVariant) (fuel : Nat) {b : List Byte} (prog : List Instr) (subtab : List SubEntry)
    (noDecl : b.head? ≠ some v.opcode) (more : b ≠ []) :
    loadSubLoop v (fuel + 1) b prog subtab = match decodeOne b with
      | .noOpcode => .ok prog subtab
      | .err e => .error e
      | .ok i n => loadSubLoop v fuel (b.drop n) (prog ++ [i]) subtab := by
  cases b with
  | nil => exact absurd rfl more
  | cons op bs =>
    have h : op ≠ v.opcode := by simpa using noDecl
    conv_lhs => unfold loadSubLoop
    simp only [if_neg h] <;> split <;> simp_all

/-- A pass over a declaration and the body that follows it. -/
theorem loadSubLoop_declared (v : SubVariant) (fuel : Nat) {b : List Byte} (prog : List Instr) (subtab : List SubEntry)
    {k c n : Nat} (decl : b.head? = some v.opcode) (read : v.decode b = some (k, c, n))
    (isBody : (b.drop n).head? ≠ some v.opcode) (more : b.drop n ≠ []) :
    loadSubLoop v (fuel + 1) b prog subtab = match decodeOne (b.drop n) with
      | .noOpcode => .error .emptySubroutine
      | .err e => .error e
      | .ok i m =>
        if subtab.any (fun row => row.index == k) then .error (.duplicateSubroutine k)
        else loadSubLoop v fuel ((b.drop n).drop m) (prog ++ [i]) (subtab ++ [⟨k, prog.length, c⟩]) := by
  cases b with
  | nil => simp at decl
  | cons op bs =>
    have h : op = v.opcode := by simpa using decl
    conv_lhs => unfold loadSubLoop
    simp only [h, if_true]
    rw [← h, read]
    simp only
    generalize (op :: bs).drop n = body at *
    cases body with
    | nil => simp at more
    | cons op' _ =>
      have h' : op' ≠ v.opcode := by simpa using isBody
      simp only [if_neg h', h] <;> split <;> simp_all

end Sys2Proof
end

