-- ==== Sys2Proof/Laws/Memory.lean ====
section
/-! SUPPORT. What the memory operations do: a read after a write, and the canonical form they keep. -/

namespace Sys2Proof.Machine

@[simp] theorem Memory.read_nil (a : Nat) : Memory.read [] a = 0 := rfl

theorem Memory.read_erase_self (m : Memory) (a : Nat) : Memory.read (Memory.erase m a) a = 0 := by
  induction m with
  | nil => rfl
  | cons e m ih =>
    obtain ⟨k, v⟩ := e
    by_cases h : k = a <;> simp [Memory.erase, Memory.read, h, ih]

theorem Memory.read_erase_other (m : Memory) {a c : Nat} (h : c ≠ a) :
    Memory.read (Memory.erase m a) c = Memory.read m c := by
  induction m with
  | nil => rfl
  | cons e m ih =>
    obtain ⟨k, v⟩ := e
    by_cases hk : k = a
    · have : k ≠ c := fun hc => h (hc ▸ hk)
      simp [Memory.erase, Memory.read, hk, ih]
      intro hc; exact absurd hc.symm h
    · simp [Memory.erase, Memory.read, hk, ih]

theorem Memory.read_insert_self (m : Memory) (a : Nat) (v : Word) :
    Memory.read (Memory.insert (Memory.erase m a) a v) a = v := by
  induction m with
  | nil => simp [Memory.erase, Memory.insert, Memory.read]
  | cons e m ih =>
    obtain ⟨k, w⟩ := e
    by_cases hk : k = a
    · simpa [Memory.erase, hk] using ih
    · by_cases hlt : a < k
      · simp [Memory.erase, hk, Memory.insert, hlt, Memory.read]
      · simpa [Memory.erase, hk, Memory.insert, hlt, Memory.read] using ih

theorem Memory.read_insert_other (m : Memory) {a c : Nat} (v : Word) (h : c ≠ a) :
    Memory.read (Memory.insert m a v) c = Memory.read m c := by
  have h' : a ≠ c := fun e => h e.symm
  induction m with
  | nil => simp [Memory.insert, Memory.read, h', Memory.unlisted]
  | cons e m ih =>
    obtain ⟨k, w⟩ := e
    by_cases hlt : a < k
    · simp [Memory.insert, hlt, Memory.read, h']
    · simp [Memory.insert, hlt, Memory.read, ih]

/-- A read of the cell just written gives the value written (R42). -/
@[simp] theorem Memory.read_write_self (m : Memory) (a : Nat) (v : Word) :
    Memory.read (Memory.write m a v) a = v := by
  unfold Memory.write
  split
  · next h => rw [Memory.read_erase_self, h]; rfl
  · exact Memory.read_insert_self m a v

/-- A write leaves every other cell as it was. -/
theorem Memory.read_write_other (m : Memory) {a c : Nat} (v : Word) (h : c ≠ a) :
    Memory.read (Memory.write m a v) c = Memory.read m c := by
  unfold Memory.write
  split
  · exact Memory.read_erase_other m h
  · rw [Memory.read_insert_other _ v h, Memory.read_erase_other m h]

/-! ## The canonical form -/

theorem Memory.wfFrom_cons (lo a : Nat) (v : Word) (m : Memory) :
    Memory.wfFrom lo ((a, v) :: m) = true
      ↔ lo ≤ a ∧ a < Config.memCells ∧ v ≠ Memory.unlisted ∧ Memory.wfFrom (a + 1) m = true := by
  simp [Memory.wfFrom, and_assoc]

theorem Memory.wfFrom_mono {lo lo' : Nat} {m : Memory} (h : Memory.wfFrom lo m = true) (hle : lo' ≤ lo) :
    Memory.wfFrom lo' m = true := by
  cases m with
  | nil => rfl
  | cons e m =>
    obtain ⟨k, v⟩ := e
    rw [Memory.wfFrom_cons] at h ⊢
    exact ⟨hle.trans h.1, h.2⟩

theorem Memory.wfFrom_erase {lo : Nat} {m : Memory} (a : Nat) (h : Memory.wfFrom lo m = true) :
    Memory.wfFrom lo (Memory.erase m a) = true := by
  induction m generalizing lo with
  | nil => rfl
  | cons e m ih =>
    obtain ⟨k, v⟩ := e
    obtain ⟨h1, h2, h3, h4⟩ := (Memory.wfFrom_cons ..).1 h
    by_cases hk : k = a
    · simpa [Memory.erase, hk] using Memory.wfFrom_mono (ih h4) (by omega)
    · simpa [Memory.erase, hk] using (Memory.wfFrom_cons ..).2 ⟨h1, h2, h3, ih h4⟩

theorem Memory.wfFrom_insert {lo : Nat} {m : Memory} {a : Nat} {v : Word} (h : Memory.wfFrom lo m = true)
    (hlo : lo ≤ a) (ha : a < Config.memCells) (hv : v ≠ Memory.unlisted) :
    Memory.wfFrom lo (Memory.insert (Memory.erase m a) a v) = true := by
  induction m generalizing lo with
  | nil => exact (Memory.wfFrom_cons ..).2 ⟨hlo, ha, hv, rfl⟩
  | cons e m ih =>
    obtain ⟨k, w⟩ := e
    obtain ⟨h1, h2, h3, h4⟩ := (Memory.wfFrom_cons ..).1 h
    by_cases hk : k = a
    · simpa [Memory.erase, hk] using ih (Memory.wfFrom_mono h4 (by omega)) hlo
    · by_cases hlt : a < k
      · have h5 := Memory.wfFrom_erase a h4
        simpa [Memory.erase, hk, Memory.insert, hlt] using
          (Memory.wfFrom_cons ..).2 ⟨hlo, ha, hv, (Memory.wfFrom_cons ..).2 ⟨hlt, h2, h3, h5⟩⟩
      · simpa [Memory.erase, hk, Memory.insert, hlt] using
          (Memory.wfFrom_cons ..).2 ⟨h1, h2, h3, ih h4 (by omega)⟩

/-- A write at a cell's address keeps the canonical form. -/
theorem Memory.wf_write {m : Memory} (a : Addr) (v : Word) (h : Memory.wf m = true) :
    Memory.wf (Memory.write m (uint a) v) = true := by
  have ha : uint a < Config.memCells := a.isLt
  unfold Memory.write
  split
  · exact Memory.wfFrom_erase _ h
  · next hv => exact Memory.wfFrom_insert h (Nat.zero_le _) ha hv

theorem Memory.wf_nil : Memory.wf [] = true := rfl

theorem Memory.read_below {lo a : Nat} {m : Memory} (h : Memory.wfFrom lo m = true) (ha : a < lo) :
    Memory.read m a = Memory.unlisted := by
  induction m generalizing lo with
  | nil => rfl
  | cons e m ih =>
    obtain ⟨k, v⟩ := e
    obtain ⟨h1, -, -, h4⟩ := (Memory.wfFrom_cons ..).1 h
    have hk : k ≠ a := by omega
    simpa [Memory.read, hk] using ih h4 (by omega)

/-- Canonical memories that read alike are equal lists. -/
theorem Memory.ext_of_read {m m' : Memory} (h : Memory.wf m = true) (h' : Memory.wf m' = true)
    (hr : ∀ a, Memory.read m a = Memory.read m' a) : m = m' := by
  suffices H : ∀ (m m' : Memory) (lo : Nat), Memory.wfFrom lo m = true → Memory.wfFrom lo m' = true →
      (∀ a, lo ≤ a → Memory.read m a = Memory.read m' a) → m = m' from H m m' 0 h h' fun a _ => hr a
  clear h h' hr
  intro m
  induction m with
  | nil =>
    intro m' lo _ h' hr
    cases m' with
    | nil => rfl
    | cons e m' =>
      obtain ⟨k, v⟩ := e
      obtain ⟨h1, -, h3, -⟩ := (Memory.wfFrom_cons ..).1 h'
      exact absurd (by simpa [Memory.read] using (hr k h1).symm) h3
  | cons e m ih =>
    obtain ⟨k, v⟩ := e
    intro m' lo h h' hr
    obtain ⟨h1, h2, h3, h4⟩ := (Memory.wfFrom_cons ..).1 h
    cases m' with
    | nil => exact absurd (by simpa [Memory.read] using hr k h1) h3
    | cons e' m' =>
      obtain ⟨k', v'⟩ := e'
      obtain ⟨h1', h2', h3', h4'⟩ := (Memory.wfFrom_cons ..).1 h'
      have hk : k = k' := by
        rcases Nat.lt_trichotomy k k' with hlt | heq | hgt
        · have hb : Memory.read ((k', v') :: m') k = Memory.unlisted :=
            Memory.read_below (lo := k') ((Memory.wfFrom_cons ..).2 ⟨Nat.le_refl _, h2', h3', h4'⟩) hlt
          have := hr k h1
          rw [hb] at this
          exact absurd (by simpa [Memory.read] using this) h3
        · exact heq
        · have hb : Memory.read ((k, v) :: m) k' = Memory.unlisted :=
            Memory.read_below (lo := k) ((Memory.wfFrom_cons ..).2 ⟨Nat.le_refl _, h2, h3, h4⟩) hgt
          have := hr k' h1'
          rw [hb] at this
          exact absurd (by simpa [Memory.read] using this.symm) h3'
      subst hk
      have hv : v = v' := by simpa [Memory.read] using hr k h1
      subst hv
      have : m = m' := ih m' (k + 1) h4 h4' fun a ha => by
        have hne : k ≠ a := by omega
        simpa [Memory.read, hne] using hr a (by omega)
      rw [this]

end Sys2Proof.Machine
end

