-- ==== Sys2Proof/Laws/State.lean ====
section
/-! SUPPORT. One lemma per field of State per update (true by rfl), and what the controller's updates do to the state. -/

namespace Sys2Proof.Machine

/-! ## withMem -/

@[simp] theorem State.withMem_mem (s : State) (m : Memory) : (s.withMem m).mem = m := rfl
@[simp] theorem State.withMem_st (s : State) (m : Memory) : (s.withMem m).st = s.st := rfl
@[simp] theorem State.withMem_x (s : State) (m : Memory) : (s.withMem m).x = s.x := rfl
@[simp] theorem State.withMem_pc (s : State) (m : Memory) : (s.withMem m).pc = s.pc := rfl
@[simp] theorem State.withMem_prog (s : State) (m : Memory) : (s.withMem m).prog = s.prog := rfl
@[simp] theorem State.withMem_pending (s : State) (m : Memory) : (s.withMem m).pending = s.pending := rfl
@[simp] theorem State.withMem_run (s : State) (m : Memory) : (s.withMem m).run = s.run := rfl
@[simp] theorem State.withMem_subtab (s : State) (m : Memory) : (s.withMem m).subtab = s.subtab := rfl
@[simp] theorem State.withMem_frames (s : State) (m : Memory) : (s.withMem m).frames = s.frames := rfl
@[simp] theorem State.withMem_hostCalls (s : State) (m : Memory) : (s.withMem m).hostCalls = s.hostCalls := rfl

/-! ## withSt -/

@[simp] theorem State.withSt_mem (s : State) (v : Byte) : (s.withSt v).mem = s.mem := rfl
@[simp] theorem State.withSt_st (s : State) (v : Byte) : (s.withSt v).st = v := rfl
@[simp] theorem State.withSt_x (s : State) (v : Byte) : (s.withSt v).x = s.x := rfl
@[simp] theorem State.withSt_pc (s : State) (v : Byte) : (s.withSt v).pc = s.pc := rfl
@[simp] theorem State.withSt_prog (s : State) (v : Byte) : (s.withSt v).prog = s.prog := rfl
@[simp] theorem State.withSt_pending (s : State) (v : Byte) : (s.withSt v).pending = s.pending := rfl
@[simp] theorem State.withSt_run (s : State) (v : Byte) : (s.withSt v).run = s.run := rfl
@[simp] theorem State.withSt_subtab (s : State) (v : Byte) : (s.withSt v).subtab = s.subtab := rfl
@[simp] theorem State.withSt_frames (s : State) (v : Byte) : (s.withSt v).frames = s.frames := rfl
@[simp] theorem State.withSt_hostCalls (s : State) (v : Byte) : (s.withSt v).hostCalls = s.hostCalls := rfl

/-! ## withX -/

@[simp] theorem State.withX_mem (s : State) (v : Word) : (s.withX v).mem = s.mem := rfl
@[simp] theorem State.withX_st (s : State) (v : Word) : (s.withX v).st = s.st := rfl
@[simp] theorem State.withX_x (s : State) (v : Word) : (s.withX v).x = v := rfl
@[simp] theorem State.withX_pc (s : State) (v : Word) : (s.withX v).pc = s.pc := rfl
@[simp] theorem State.withX_prog (s : State) (v : Word) : (s.withX v).prog = s.prog := rfl
@[simp] theorem State.withX_pending (s : State) (v : Word) : (s.withX v).pending = s.pending := rfl
@[simp] theorem State.withX_run (s : State) (v : Word) : (s.withX v).run = s.run := rfl
@[simp] theorem State.withX_subtab (s : State) (v : Word) : (s.withX v).subtab = s.subtab := rfl
@[simp] theorem State.withX_frames (s : State) (v : Word) : (s.withX v).frames = s.frames := rfl
@[simp] theorem State.withX_hostCalls (s : State) (v : Word) : (s.withX v).hostCalls = s.hostCalls := rfl

/-! ## withPc -/

@[simp] theorem State.withPc_mem (s : State) (n : Nat) : (s.withPc n).mem = s.mem := rfl
@[simp] theorem State.withPc_st (s : State) (n : Nat) : (s.withPc n).st = s.st := rfl
@[simp] theorem State.withPc_x (s : State) (n : Nat) : (s.withPc n).x = s.x := rfl
@[simp] theorem State.withPc_pc (s : State) (n : Nat) : (s.withPc n).pc = n := rfl
@[simp] theorem State.withPc_prog (s : State) (n : Nat) : (s.withPc n).prog = s.prog := rfl
@[simp] theorem State.withPc_pending (s : State) (n : Nat) : (s.withPc n).pending = s.pending := rfl
@[simp] theorem State.withPc_run (s : State) (n : Nat) : (s.withPc n).run = s.run := rfl
@[simp] theorem State.withPc_subtab (s : State) (n : Nat) : (s.withPc n).subtab = s.subtab := rfl
@[simp] theorem State.withPc_frames (s : State) (n : Nat) : (s.withPc n).frames = s.frames := rfl
@[simp] theorem State.withPc_hostCalls (s : State) (n : Nat) : (s.withPc n).hostCalls = s.hostCalls := rfl

/-! ## withPending -/

@[simp] theorem State.withPending_mem (s : State) (r : Option Request) : (s.withPending r).mem = s.mem := rfl
@[simp] theorem State.withPending_st (s : State) (r : Option Request) : (s.withPending r).st = s.st := rfl
@[simp] theorem State.withPending_x (s : State) (r : Option Request) : (s.withPending r).x = s.x := rfl
@[simp] theorem State.withPending_pc (s : State) (r : Option Request) : (s.withPending r).pc = s.pc := rfl
@[simp] theorem State.withPending_prog (s : State) (r : Option Request) : (s.withPending r).prog = s.prog := rfl
@[simp] theorem State.withPending_pending (s : State) (r : Option Request) : (s.withPending r).pending = r := rfl
@[simp] theorem State.withPending_run (s : State) (r : Option Request) : (s.withPending r).run = s.run := rfl
@[simp] theorem State.withPending_subtab (s : State) (r : Option Request) : (s.withPending r).subtab = s.subtab := rfl
@[simp] theorem State.withPending_frames (s : State) (r : Option Request) : (s.withPending r).frames = s.frames := rfl
@[simp] theorem State.withPending_hostCalls (s : State) (r : Option Request) : (s.withPending r).hostCalls = s.hostCalls := rfl

/-! ## withRun -/

@[simp] theorem State.withRun_mem (s : State) (r : RunState) : (s.withRun r).mem = s.mem := rfl
@[simp] theorem State.withRun_st (s : State) (r : RunState) : (s.withRun r).st = s.st := rfl
@[simp] theorem State.withRun_x (s : State) (r : RunState) : (s.withRun r).x = s.x := rfl
@[simp] theorem State.withRun_pc (s : State) (r : RunState) : (s.withRun r).pc = s.pc := rfl
@[simp] theorem State.withRun_prog (s : State) (r : RunState) : (s.withRun r).prog = s.prog := rfl
@[simp] theorem State.withRun_pending (s : State) (r : RunState) : (s.withRun r).pending = s.pending := rfl
@[simp] theorem State.withRun_run (s : State) (r : RunState) : (s.withRun r).run = r := rfl
@[simp] theorem State.withRun_subtab (s : State) (r : RunState) : (s.withRun r).subtab = s.subtab := rfl
@[simp] theorem State.withRun_frames (s : State) (r : RunState) : (s.withRun r).frames = s.frames := rfl
@[simp] theorem State.withRun_hostCalls (s : State) (r : RunState) : (s.withRun r).hostCalls = s.hostCalls := rfl

/-! ## emit -/

@[simp] theorem State.emit_mem (s : State) (r : Request) : (s.emit r).mem = s.mem := rfl
@[simp] theorem State.emit_st (s : State) (r : Request) : (s.emit r).st = s.st := rfl
@[simp] theorem State.emit_x (s : State) (r : Request) : (s.emit r).x = s.x := rfl
@[simp] theorem State.emit_pc (s : State) (r : Request) : (s.emit r).pc = s.pc := rfl
@[simp] theorem State.emit_prog (s : State) (r : Request) : (s.emit r).prog = s.prog := rfl
@[simp] theorem State.emit_pending (s : State) (r : Request) : (s.emit r).pending = s.pending := rfl
@[simp] theorem State.emit_run (s : State) (r : Request) : (s.emit r).run = s.run := rfl
@[simp] theorem State.emit_subtab (s : State) (r : Request) : (s.emit r).subtab = s.subtab := rfl
@[simp] theorem State.emit_frames (s : State) (r : Request) : (s.emit r).frames = s.frames := rfl
@[simp] theorem State.emit_hostCalls (s : State) (r : Request) : (s.emit r).hostCalls = s.hostCalls ++ [r] := rfl

/-! ## memWrite -/

@[simp] theorem State.memWrite_mem (s : State) (a : Addr) (v : Word) : (s.memWrite a v).mem = Memory.write s.mem (uint a) v := rfl
@[simp] theorem State.memWrite_st (s : State) (a : Addr) (v : Word) : (s.memWrite a v).st = s.st := rfl
@[simp] theorem State.memWrite_x (s : State) (a : Addr) (v : Word) : (s.memWrite a v).x = s.x := rfl
@[simp] theorem State.memWrite_pc (s : State) (a : Addr) (v : Word) : (s.memWrite a v).pc = s.pc := rfl
@[simp] theorem State.memWrite_prog (s : State) (a : Addr) (v : Word) : (s.memWrite a v).prog = s.prog := rfl
@[simp] theorem State.memWrite_pending (s : State) (a : Addr) (v : Word) : (s.memWrite a v).pending = s.pending := rfl
@[simp] theorem State.memWrite_run (s : State) (a : Addr) (v : Word) : (s.memWrite a v).run = s.run := rfl
@[simp] theorem State.memWrite_subtab (s : State) (a : Addr) (v : Word) : (s.memWrite a v).subtab = s.subtab := rfl
@[simp] theorem State.memWrite_frames (s : State) (a : Addr) (v : Word) : (s.memWrite a v).frames = s.frames := rfl
@[simp] theorem State.memWrite_hostCalls (s : State) (a : Addr) (v : Word) : (s.memWrite a v).hostCalls = s.hostCalls := rfl

/-! ## raise -/

@[simp] theorem State.raise_mem (s : State) (e : RunError) : (s.raise e).mem = s.mem := rfl
@[simp] theorem State.raise_st (s : State) (e : RunError) : (s.raise e).st = s.st := rfl
@[simp] theorem State.raise_x (s : State) (e : RunError) : (s.raise e).x = s.x := rfl
@[simp] theorem State.raise_pc (s : State) (e : RunError) : (s.raise e).pc = s.pc := rfl
@[simp] theorem State.raise_prog (s : State) (e : RunError) : (s.raise e).prog = s.prog := rfl
@[simp] theorem State.raise_pending (s : State) (e : RunError) : (s.raise e).pending = s.pending := rfl
@[simp] theorem State.raise_run (s : State) (e : RunError) : (s.raise e).run = .faulted e (s.pc - 1) := rfl
@[simp] theorem State.raise_subtab (s : State) (e : RunError) : (s.raise e).subtab = s.subtab := rfl
@[simp] theorem State.raise_frames (s : State) (e : RunError) : (s.raise e).frames = s.frames := rfl
@[simp] theorem State.raise_hostCalls (s : State) (e : RunError) : (s.raise e).hostCalls = s.hostCalls := rfl

/-! ## advance -/

@[simp] theorem State.advance_mem (s : State) : (s.advance).mem = s.mem := rfl
@[simp] theorem State.advance_st (s : State) : (s.advance).st = s.st := rfl
@[simp] theorem State.advance_x (s : State) : (s.advance).x = s.x := rfl
@[simp] theorem State.advance_pc (s : State) : (s.advance).pc = s.pc + 1 := rfl
@[simp] theorem State.advance_prog (s : State) : (s.advance).prog = s.prog := rfl
@[simp] theorem State.advance_pending (s : State) : (s.advance).pending = s.pending := rfl
@[simp] theorem State.advance_run (s : State) : (s.advance).run = s.run := rfl
@[simp] theorem State.advance_subtab (s : State) : (s.advance).subtab = s.subtab := rfl
@[simp] theorem State.advance_frames (s : State) : (s.advance).frames = s.frames := rfl
@[simp] theorem State.advance_hostCalls (s : State) : (s.advance).hostCalls = s.hostCalls := rfl

/-! ## start -/

@[simp] theorem State.start_mem (s : State) : (s.start).mem = s.mem := rfl
@[simp] theorem State.start_st (s : State) : (s.start).st = s.st := rfl
@[simp] theorem State.start_x (s : State) : (s.start).x = s.x := rfl
@[simp] theorem State.start_pc (s : State) : (s.start).pc = s.pc := rfl
@[simp] theorem State.start_prog (s : State) : (s.start).prog = s.prog := rfl
@[simp] theorem State.start_pending (s : State) : (s.start).pending = s.pending := rfl
@[simp] theorem State.start_run (s : State) : (s.start).run = .running := rfl
@[simp] theorem State.start_subtab (s : State) : (s.start).subtab = s.subtab := rfl
@[simp] theorem State.start_frames (s : State) : (s.start).frames = s.frames := rfl
@[simp] theorem State.start_hostCalls (s : State) : (s.start).hostCalls = s.hostCalls := rfl

/-! ## Delivery and the end of the program -/

/-- Step (1) of a cycle says all of itself: the slot is empty, and its request, if any, is the last host call. -/
theorem State.deliver_eq (s : State) :
    s.deliver = { s with pending := none, hostCalls := s.hostCalls ++ s.pending.toList } := by
  unfold State.deliver
  cases h : s.pending with
  | none => cases s; simp_all
  | some r => simp [State.emit, State.withPending]

/-- The state in which a cycle executes its instruction. -/
theorem State.deliver_advance_eq (s : State) :
    s.deliver.advance
      = { s with pc := s.pc + 1, pending := none, hostCalls := s.hostCalls ++ s.pending.toList } := by
  rw [State.deliver_eq]; rfl

/-- FinalDrain empties the slot and touches the record of host calls alone; which record, FINAL_DRAIN says. -/
theorem State.finalDrain_eq (s : State) :
    s.finalDrain = { s with pending := none, hostCalls := s.finalDrain.hostCalls } := by
  unfold State.finalDrain
  split
  · rw [State.deliver_eq]
  · rfl

theorem State.finalDrain_hostCalls_deliver (s : State) (h : Config.finalDrain = .deliver) :
    s.finalDrain.hostCalls = s.hostCalls ++ s.pending.toList := by
  simp [State.finalDrain, h, State.deliver_eq]

theorem State.finalDrain_hostCalls_drop (s : State) (h : Config.finalDrain = .drop) :
    s.finalDrain.hostCalls = s.hostCalls := by
  simp [State.finalDrain, h]

end Sys2Proof.Machine
end

