-- ==== Sys2Proof/Laws/Exec.lean ====
section
/-! SUPPORT. What the shared operations and every instruction can do to the state, each said once. -/

namespace Sys2Proof.Machine

/-! ## Narrowing -/

/-- Wrapping the exact sum is bit-vector addition (R70: "signed or unsigned (the bits agree)"). -/
theorem trunc32_add (a b : Word) : trunc32 (sint a + sint b) = a + b := by
  rw [trunc32, BitVec.ofInt_add, BitVec.ofInt_toInt, BitVec.ofInt_toInt]

/-- Wrapping the exact difference is bit-vector subtraction. -/
theorem trunc32_sub (a b : Word) : trunc32 (sint a - sint b) = a - b := by
  rw [trunc32, Int.sub_eq_add_neg, BitVec.ofInt_add, BitVec.ofInt_neg, BitVec.ofInt_toInt, BitVec.ofInt_toInt,
    ← BitVec.sub_eq_add_neg]

theorem shiftAmount_eq (b : Word) : shiftAmount b = b.toNat % 32 := by
  simp [shiftAmount]

theorem shiftAmount_lt (b : Word) : shiftAmount b < 32 := by
  rw [shiftAmount_eq]; omega

/-! ## Memory through the state -/

theorem State.memWrite_read_self (s : State) (a : Addr) (v : Word) : (s.memWrite a v).memRead a = v :=
  Memory.read_write_self _ _ _

theorem State.memWrite_read_other (s : State) {a : Addr} {c : Nat} (v : Word) (h : c ≠ uint a) :
    Memory.read (s.memWrite a v).mem c = Memory.read s.mem c :=
  Memory.read_write_other _ _ h

/-- The shared ALU shape writes one cell, from the two values read before the write (R68). -/
theorem State.aluUpdate_eq (s : State) (src : Src) (dest : Addr) (f : Word → Word → Word) :
    s.aluUpdate src dest f = s.memWrite dest (f (s.memRead dest) (s.readSrc src)) := rfl

/-! ## Flags -/

@[simp] theorem setFlags_z (st : Byte) (z n : Bool) : (setFlags st z n).getLsbD 0 = z := by
  cases z <;> cases n <;> simp [setFlags]

@[simp] theorem setFlags_n (st : Byte) (z n : Bool) : (setFlags st z n).getLsbD 1 = n := by
  cases z <;> cases n <;> simp [setFlags]

/-- Bits 7:2 of ST are never written (R21). -/
theorem setFlags_unused (st : Byte) (z n : Bool) (k : Nat) (h : 2 ≤ k) :
    (setFlags st z n).getLsbD k = st.getLsbD k := by
  revert st
  by_cases hk : k < 8
  · interval_cases k <;> revert z n <;> decide
  · intro st
    rw [BitVec.getLsbD_of_ge _ _ (by omega), BitVec.getLsbD_of_ge _ _ (by omega)]

theorem setFlags_setFlags (st : Byte) (z n z' n' : Bool) :
    setFlags (setFlags st z n) z' n' = setFlags st z' n' := by
  revert st z n z' n'; decide

/-- The one byte CMP makes: the flags say the sign of the wrapped difference (R77). -/
theorem cmpFlags_eq (st : Byte) (a b : Word) :
    cmpFlags st a b = setFlags st (decide (a = b)) (decide (sint (a - b) < 0)) := by
  have hd : cmpDifference a b = a - b := trunc32_sub a b
  have hz : a - b = 0 ↔ a = b := by
    constructor
    · intro h
      have := BitVec.sub_add_cancel a b
      rw [h] at this
      simpa using this.symm
    · rintro rfl; simp
  unfold cmpFlags
  simp only [hd]
  by_cases hn : sint (a - b) < 0
  · have hne : a ≠ b := by
      intro h; rw [hz.2 h] at hn; exact absurd hn (by decide)
    simp only [hn, if_true, setFlags_setFlags, decide_eq_false hne, decide_true]
  · by_cases he : a = b
    · have h0 : a - b = 0 := hz.2 he
      rw [if_neg hn, if_pos h0, setFlags_setFlags, decide_eq_true he, decide_eq_false hn]
    · have h0 : a - b ≠ 0 := fun h => he (hz.1 h)
      rw [if_neg hn, if_neg h0, decide_eq_false he, decide_eq_false hn]

/-! ## Jumps -/

/-- When the bounds check passes (R86), with p = pc − 1. -/
theorem jumpCheck_eq_none (o : Int) (s : State) :
    jumpCheck o s = none ↔ (o < 0 → 1 ≤ s.pc + o) ∧ (0 < o → s.pc + o ≤ s.progLen) := by
  unfold jumpCheck
  dsimp only
  constructor
  · intro h
    split at h
    · simp at h
    · split at h
      · simp at h
      · omega
  · rintro ⟨h1, h2⟩
    rw [if_neg (by omega), if_neg (by omega)]

/-- Which error the bounds check raises (R86). -/
theorem jumpCheck_eq_some (o : Int) (s : State) (e : RunError) :
    jumpCheck o s = some e ↔
      (e = .invalidNegativeOffset o ∧ o < 0 ∧ s.pc + o < 1)
        ∨ (e = .invalidPositiveOffset o ∧ 0 < o ∧ s.progLen < s.pc + o) := by
  unfold jumpCheck
  dsimp only
  constructor
  · intro h
    split at h
    · left; simp at h; exact ⟨h.symm, by omega, by omega⟩
    · split at h
      · right; simp at h; exact ⟨h.symm, by omega, by omega⟩
      · simp at h
  · rintro (⟨rfl, h1, h2⟩ | ⟨rfl, h1, h2⟩)
    · rw [if_pos (by omega)]
    · rw [if_neg (by omega), if_pos (by omega)]

/-- Everything a jump can do: raise the check's error, go to the target, or go on. -/
theorem jumpExec_cases (c : Cond) (offset : Offset) (s : State) :
    (∃ e, jumpCheck (sint offset) s = some e ∧ jumpExec c offset s = .next (s.raise e))
      ∨ (jumpCheck (sint offset) s = none ∧ Cond.holds c s = true
          ∧ jumpExec c offset s = .next (s.withPc (jumpTarget (sint offset) s)))
      ∨ (jumpCheck (sint offset) s = none ∧ Cond.holds c s = false ∧ jumpExec c offset s = .next s) := by
  unfold jumpExec
  cases h : jumpCheck (sint offset) s with
  | some e => exact .inl ⟨e, rfl, rfl⟩
  | none => cases hc : Cond.holds c s <;> simp

/-! ## Strings -/

/-- The bytes of `n` cells from `c`, each cell's most significant byte first (R94). -/
def cellStream (m : Memory) (c n : Nat) : List Byte := (List.range' c n).flatMap fun k => cellBytes (Memory.read m k)

theorem cellStream_succ (m : Memory) (c n : Nat) :
    cellStream m c (n + 1) = cellBytes (Memory.read m c) ++ cellStream m (c + 1) n := by
  simp [cellStream, List.range'_succ]

/-- A scan over bytes: the buffer grows by the bytes before the first zero byte. -/
theorem scanBytes_eq (bs buf : List Byte) :
    scanBytes bs buf = if 0x00#8 ∈ bs then .done (buf ++ bs.takeWhile (· != 0x00#8)) else .more (buf ++ bs) := by
  induction bs generalizing buf with
  | nil => simp [scanBytes]
  | cons b bs ih =>
    by_cases hb : b = 0x00#8
    · simp [scanBytes, hb]
    · have hb' : ¬ 0x00#8 = b := fun h => hb h.symm
      have hne : (b != 0x00#8) = true := by simpa using hb
      simp only [scanBytes, hb, if_false, ih, List.mem_cons, hb', false_or, List.takeWhile_cons, hne, if_true]
      split <;> simp

/-- PRINT's scan, said once: the bytes up to the first zero byte of the stream of cells, if it has one (R94). -/
theorem scanCells_eq (m : Memory) (n c : Nat) (buf : List Byte) :
    scanCells m n c buf
      = if 0x00#8 ∈ cellStream m c n then some (buf ++ (cellStream m c n).takeWhile (· != 0x00#8)) else none := by
  induction n generalizing c buf with
  | zero => simp [scanCells, cellStream]
  | succ n ih =>
    rw [scanCells, scanBytes_eq, cellStream_succ]
    by_cases h : 0x00#8 ∈ cellBytes (Memory.read m c)
    · have hx : ∃ x ∈ cellBytes (Memory.read m c), ¬ (x != 0x00#8) = true := ⟨_, h, by simp⟩
      rw [if_pos h, if_pos (List.mem_append_left _ h)]
      obtain ⟨l1, l2, hl⟩ := List.append_of_mem h
      simp only [Option.some.injEq, List.append_cancel_left_eq]
      rw [List.takeWhile_append, if_neg]
      intro hlen
      have := List.takeWhile_eq_self_iff.1
        (List.IsPrefix.eq_of_length (List.takeWhile_prefix (· != 0x00#8)) hlen) _ h
      simp at this
    · rw [if_neg h]
      simp only [ih, List.mem_append, h, false_or]
      have hall : ∀ x ∈ cellBytes (Memory.read m c), (x != 0x00#8) = true := fun x hx => by
        simpa using fun hx0 : x = 0x00#8 => h (hx0 ▸ hx)
      rw [List.takeWhile_append_of_pos hall, List.append_assoc]

/-! ## Every instruction -/

/-- Everything an instruction can do. Each of the 19 answers a next state, and it is one of these. -/
inductive Effect (i : Instr) (s : State) : State → Prop where
  /-- it writes its destination cell -/
  | cell (d : Addr) (v : Word) (hw : i.writes = some d) : Effect i s (s.memWrite d v)
  /-- MUL and DIV write their destination cell and X -/
  | cellX (src d : Addr) (v w : Word) (hi : i = .mul src d ∨ i = .div src d) : Effect i s ((s.memWrite d v).withX w)
  /-- CMP writes ST -/
  | flags (src d : Addr) (hi : i = .cmp src d) : Effect i s (s.withSt (cmpFlags s.st (s.memRead d) (s.memRead src)))
  /-- a jump is taken, within bounds -/
  | goto (c : Cond) (o : Offset) (hi : i = Instr.ofCond c o) (hc : jumpCheck (sint o) s = none)
      (hh : Cond.holds c s = true) : Effect i s (s.withPc (jumpTarget (sint o) s))
  /-- a jump is not taken -/
  | skip (c : Cond) (o : Offset) (hi : i = Instr.ofCond c o) (hc : jumpCheck (sint o) s = none)
      (hh : Cond.holds c s = false) : Effect i s s
  /-- PRINT leaves a request -/
  | request (a : Addr) (buf : List Byte) (hi : i = .print a) (hb : s.cString a = some buf) :
      Effect i s (s.withPending (some (.print buf)))
  /-- a jump's bounds check fails -/
  | badJump (c : Cond) (o : Offset) (e : RunError) (hi : i = Instr.ofCond c o) (hc : jumpCheck (sint o) s = some e) :
      Effect i s (s.raise e)
  /-- DIV by zero -/
  | divZero (src d : Addr) (hi : i = .div src d) (hb : sint (s.memRead src) = 0) :
      Effect i s (s.raise (.divisionByZero src d))
  /-- DIV of −2^31 by −1 -/
  | divOverflow (src d : Addr) (hi : i = .div src d) (ha : sint (s.memRead d) = -2 ^ 31)
      (hb : sint (s.memRead src) = -1) : Effect i s (s.raise (.divideOverflow src d))
  /-- PRINT finds no terminator -/
  | noString (a : Addr) (hi : i = .print a) (hb : s.cString a = none) : Effect i s (s.raise (.unterminatedString a))

theorem jump_effect (c : Cond) (o : Offset) (s : State) :
    ∃ t, jumpExec c o s = .next t ∧ Effect (Instr.ofCond c o) s t := by
  rcases jumpExec_cases c o s with ⟨e, hc, h⟩ | ⟨hc, hh, h⟩ | ⟨hc, hh, h⟩
  · exact ⟨_, h, .badJump c o e rfl hc⟩
  · exact ⟨_, h, .goto c o rfl hc hh⟩
  · exact ⟨_, h, .skip c o rfl hc hh⟩

/-- The inversion of exec: it always answers a next state, and that state is one of `Effect`'s. -/
theorem exec_effect (i : Instr) (s : State) : ∃ t, exec i s = .next t ∧ Effect i s t := by
  cases i with
  | print a =>
    cases h : s.cString a with
    | none => exact ⟨_, by simp only [exec, execPrint, h], .noString a rfl h⟩
    | some buf => exact ⟨_, by simp only [exec, execPrint, h], .request a buf rfl h⟩
  | cmp src dest => exact ⟨_, rfl, .flags src dest rfl⟩
  | mul src dest => exact ⟨_, rfl, .cellX src dest _ _ (.inl rfl)⟩
  | div src dest =>
    by_cases hb : sint (s.memRead src) = 0
    · exact ⟨_, by simp only [exec, execDiv]; rw [if_pos hb], .divZero src dest rfl hb⟩
    · by_cases ho : sint (s.memRead dest) = -2 ^ 31 ∧ sint (s.memRead src) = -1
      · exact ⟨_, by simp only [exec, execDiv]; rw [if_neg hb, if_pos ho], .divOverflow src dest rfl ho.1 ho.2⟩
      · exact ⟨_, by simp only [exec, execDiv]; rw [if_neg hb, if_neg ho], .cellX src dest _ _ (.inr rfl)⟩
  | jmp o => exact jump_effect .always o s
  | jn o => exact jump_effect .neg o s
  | jle o => exact jump_effect .negOrZero o s
  | jz o => exact jump_effect .zero o s
  | mov lit dest => exact ⟨_, rfl, .cell dest _ rfl⟩
  | assign src dest => exact ⟨_, rfl, .cell dest _ rfl⟩
  | add src dest => exact ⟨_, rfl, .cell dest _ rfl⟩
  | sub src dest => exact ⟨_, rfl, .cell dest _ rfl⟩
  | and src dest => exact ⟨_, rfl, .cell dest _ rfl⟩
  | or src dest => exact ⟨_, rfl, .cell dest _ rfl⟩
  | xor src dest => exact ⟨_, rfl, .cell dest _ rfl⟩
  | shl src dest => exact ⟨_, rfl, .cell dest _ rfl⟩
  | shr src dest => exact ⟨_, rfl, .cell dest _ rfl⟩
  | sar src dest => exact ⟨_, rfl, .cell dest _ rfl⟩
  | mfx dest => exact ⟨_, rfl, .cell dest _ rfl⟩

end Sys2Proof.Machine
end

