-- ==== Sys2Proof/Laws/PerInstr.lean ====
section
/-! SUPPORT. The per-instruction family EncodeSize: an encoding has the length that the instruction's opcode fixes (R50). -/

namespace Sys2Proof.Laws

/-- What the family says of an instruction. -/
def EncodeSize.Statement (i : Instr) : Prop := (encode i).length = i.size

theorem EncodeSize.print (a : Addr) : EncodeSize.Statement (.print a) := rfl
theorem EncodeSize.mov (l : Word) (d : Addr) : EncodeSize.Statement (.mov l d) := rfl
theorem EncodeSize.assign (s d : Addr) : EncodeSize.Statement (.assign s d) := rfl
theorem EncodeSize.add (s d : Addr) : EncodeSize.Statement (.add s d) := rfl
theorem EncodeSize.sub (s d : Addr) : EncodeSize.Statement (.sub s d) := rfl
theorem EncodeSize.and (s d : Addr) : EncodeSize.Statement (.and s d) := rfl
theorem EncodeSize.or (s d : Addr) : EncodeSize.Statement (.or s d) := rfl
theorem EncodeSize.xor (s d : Addr) : EncodeSize.Statement (.xor s d) := rfl
theorem EncodeSize.cmp (s d : Addr) : EncodeSize.Statement (.cmp s d) := rfl
theorem EncodeSize.shl (s d : Addr) : EncodeSize.Statement (.shl s d) := rfl
theorem EncodeSize.shr (s d : Addr) : EncodeSize.Statement (.shr s d) := rfl
theorem EncodeSize.sar (s d : Addr) : EncodeSize.Statement (.sar s d) := rfl
theorem EncodeSize.mul (s d : Addr) : EncodeSize.Statement (.mul s d) := rfl
theorem EncodeSize.div (s d : Addr) : EncodeSize.Statement (.div s d) := rfl
theorem EncodeSize.mfx (d : Addr) : EncodeSize.Statement (.mfx d) := rfl
theorem EncodeSize.jmp (o : Offset) : EncodeSize.Statement (.jmp o) := rfl
theorem EncodeSize.jn (o : Offset) : EncodeSize.Statement (.jn o) := rfl
theorem EncodeSize.jle (o : Offset) : EncodeSize.Statement (.jle o) := rfl
theorem EncodeSize.jz (o : Offset) : EncodeSize.Statement (.jz o) := rfl

end Sys2Proof.Laws
end

