-- ==== Sys2Proof/Laws/Step.lean ====
section
/-! SUPPORT. What a step can do, said once, and the induction over a run. -/

namespace Sys2Proof.Machine

/-- The state in which a cycle executes its instruction: the slot delivered, the counter advanced (R99, steps (1), (2)). -/
abbrev State.atExecute (s : State) : State :=
  { s with pc := s.pc + 1, pending := none, hostCalls := s.hostCalls ++ s.pending.toList }

theorem State.fetch_lt {s : State} {i : Instr} (h : s.fetch = some i) : s.pc < s.progLen := by
  simp only [State.fetch] at h
  exact (List.getElem?_eq_some_iff.1 h).1

theorem State.fetch_of_lt {s : State} (h : s.pc < s.progLen) : ∃ i, s.fetch = some i :=
  ⟨s.prog[s.pc]'h, List.getElem?_eq_getElem h⟩

/-- The inversion of step: a next state comes of the run command, of the end of the program, or of one instruction. -/
theorem step_cases {s t : State} (h : step s = .next t) :
    (s.run = .ready ∧ t = s.start)
      ∨ (s.run = .running ∧ s.pc = s.progLen ∧ t = s.finalDrain.withRun .halted)
      ∨ (s.run = .running ∧ s.pc < s.progLen ∧ ∃ i, s.fetch = some i ∧ exec i s.atExecute = .next t) := by
  unfold step at h
  split at h
  · next hr => exact .inl ⟨hr, by simpa using h.symm⟩
  · next hr =>
    unfold cycle at h
    split at h
    · next hp => exact .inr (.inl ⟨hr, hp, by simpa using h.symm⟩)
    · split at h
      · next i hf =>
        rw [State.deliver_advance_eq] at h
        exact .inr (.inr ⟨hr, State.fetch_lt hf, i, hf, h⟩)
      · simp at h
  · simp at h
  · simp at h

/-- A run by induction: what holds at its start and is kept by every step holds at every state it reaches. -/
theorem Reaches.induct {P : State → Prop} {s t : State} (h : Reaches s t) (start : P s)
    (keeps : ∀ u v, P u → step u = .next v → P v) : P t := by
  induction h with
  | refl => exact start
  | tail before last ih => exact keeps _ _ ih last

end Sys2Proof.Machine
end

