-- ==== Sys2Proof/Tests/Slice0.lean ====
section
/-! SUPPORT. The model's own tests. Expected results are the spec's: the encodings of 30_encoding.md and the vectors of
95_test_vectors.md, named at each test. The second half shows, for every statement with hypotheses, a state and operands
that meet them. -/

namespace Sys2Proof.Tests

open Sys2Proof.Machine Sys2Proof.Claims

/-! ## WellFormed: an ill-formed value is refused, its well-formed neighbours are not (R61) -/

theorem test_wellFormed_refuses_extraX_with_add : (Decoded.alu .add .extraX 0).wellFormed = false := by decide
theorem test_wellFormed_accepts_extraX_with_assign : (Decoded.alu .assign .extraX 0).wellFormed = true := by decide
theorem test_illFormed_is_no_instruction : (Decoded.alu .cmp .extraX 5).instr? = none := by decide

/-! ## Decoding: one word per constructor, written out from R51 to R55 -/

theorem test_decode_print : decodeOne [0b00000000, 0x12, 0x34] = .ok (.print 0x1234) 3 := by decide
theorem test_decode_mov : decodeOne [0b00010000, 0x80, 0x00, 0x00, 0x07, 0x01, 0x02] = .ok (.mov 0x80000007 0x0102) 7 := by
  decide
theorem test_decode_assign : decodeOne [0b00010001, 0x00, 0x05, 0x01, 0x06] = .ok (.assign 5 0x0106) 5 := by decide
theorem test_decode_add : decodeOne [0b00010010, 0x00, 0x01, 0x00, 0x00] = .ok (.add 1 0) 5 := by decide
theorem test_decode_sub : decodeOne [0b00010011, 0x00, 0x02, 0xFF, 0x00] = .ok (.sub 2 0xFF00) 5 := by decide
theorem test_decode_and : decodeOne [0b00010100, 0x00, 0x02, 0x00, 0x00] = .ok (.and 2 0) 5 := by decide
theorem test_decode_or : decodeOne [0b00010101, 0x00, 0x03, 0x00, 0x00] = .ok (.or 3 0) 5 := by decide
theorem test_decode_xor : decodeOne [0b00010110, 0x00, 0x02, 0x00, 0x03] = .ok (.xor 2 3) 5 := by decide
theorem test_decode_cmp : decodeOne [0b00010111, 0x00, 0x03, 0x00, 0x05] = .ok (.cmp 3 5) 5 := by decide
theorem test_decode_shl : decodeOne [0b00011000, 0x00, 0x01, 0x00, 0x00] = .ok (.shl 1 0) 5 := by decide
theorem test_decode_shr : decodeOne [0b00011001, 0x00, 0x01, 0x00, 0x02] = .ok (.shr 1 2) 5 := by decide
theorem test_decode_sar : decodeOne [0b00011010, 0x00, 0x01, 0x00, 0x03] = .ok (.sar 1 3) 5 := by decide
theorem test_decode_mul : decodeOne [0b00011011, 0x00, 0x06, 0x00, 0x04] = .ok (.mul 6 4) 5 := by decide
theorem test_decode_div : decodeOne [0b00011100, 0x00, 0x04, 0x00, 0x03] = .ok (.div 4 3) 5 := by decide
theorem test_decode_mfx : decodeOne [0b00011101, 0x00, 0x05] = .ok (.mfx 5) 3 := by decide
theorem test_decode_jmp : decodeOne [0b00100000, 0x80, 0x00] = .ok (.jmp (-32768)) 3 := by decide
theorem test_decode_jn : decodeOne [0b00100001, 0x00, 0x05] = .ok (.jn 5) 3 := by decide
theorem test_decode_jle : decodeOne [0b00100010, 0xFF, 0xFE] = .ok (.jle (-2)) 3 := by decide
theorem test_decode_jz : decodeOne [0b00100011, 0x7F, 0xFF] = .ok (.jz 32767) 3 := by decide

/-! Table words: the opcode is the top byte of the row's word, and operand bytes the word leaves out are zero. -/

theorem test_table_word_mov : decodeTableWord 56 0x100000002A0001 = some (.mov 42 1) := by decide
theorem test_table_word_shorter_than_mov : decodeTableWord 24 0x101234 = some (.mov 0x12340000 0) := by decide
theorem test_table_word_jz : decodeTableWord 24 0x23FFFF = some (.jz (-1)) := by decide
theorem test_table_word_unassigned : decodeTableWord 24 0x1E0000 = none := by decide

/-! Load (V-D20, V-D21, V-D22, V-D24). -/

theorem test_load_three : load [0x00, 0x00, 0x00, 0x1D, 0x00, 0x01, 0x20, 0x00, 0x00]
    = .ok [.print 0, .mfx 1, .jmp 0] [] := by decide
theorem test_load_unknown_after_valid : load [0x10, 0, 0, 0, 1, 0, 0, 0x99] = .error (.unknownOpcode 0x99) := by decide
theorem test_load_truncated_second : load [0x12, 0, 1, 0, 0, 0x13, 0] = .error .invalidAluOperand := by decide
theorem test_load_first_byte_selects : load [0x00, 0x01] = .error .invalidPrintOperand := by decide

/-- The code columns of R111 and R112 (D17). -/
theorem test_error_codes :
    [LoadError.unknownOpcode 9, .invalidPrintOperand, .invalidMovOperand, .invalidAluOperand, .invalidJumpOperand,
        .emptySubroutine, .invalidSubroutineOperand, .duplicateSubroutine 3].map LoadError.code = [1, 2, 3, 4, 5, 6, 7, 8]
      ∧ [RunError.invalidAluOperation 9, .invalidJumpOpcode 9, .invalidNegativeOffset (-1), .invalidPositiveOffset 1,
        .divisionByZero 1 0, .divideOverflow 1 0, .unterminatedString 5].map RunError.code
        = [0x10, 0x11, 0x12, 0x13, 0x14, 0x15, 0x16] := by decide

/-! ## Instructions: the vectors of 95_test_vectors.md section 2, one instruction each -/

/-- What a test looks at in the next state; none if there is no next state. -/
def after {α : Type} (o : Host.Outcome State Fault Refusal) (look : State → α) : Option α :=
  match o with
  | .next t => some (look t)
  | .fault _ => none
  | .refused _ => none

/-- Section 2.3's start state: a in cell 0, b in cell 1, X = 0x0BADF00D, ST = 0x00; p = 0. -/
def cells (a b : Word) : State :=
  { State.reset with mem := Memory.write (Memory.write [] 1 b) 0 a, x := 0x0BADF00D, pc := 1, run := .running }

/-- Section 2.4's start state: a program of length L, the jump at p executing. -/
def jumping (p L : Nat) (st : Byte) : State :=
  { State.reset with prog := List.replicate L (.jmp 0), pc := p + 1, st := st, run := .running }

/-- The row's results: mem[0], X, ST. -/
def row (t : State) : Word × Word × Byte := (t.memRead 0, t.x, t.st)

theorem test_mov_M2 : after (exec (.mov 0x80000000 7) (cells 0 0)) (fun t => t.memRead 7) = some 0x80000000 := by decide
theorem test_mov_M4 : after (exec (.mov 0 0) ((cells 99 0).withSt 2)) row = some (0, 0x0BADF00D, 2) := by decide
theorem test_assign_A2 : after (exec (.assign 1 0) (cells 5 0xFFFFFFFF)) row = some (0xFFFFFFFF, 0x0BADF00D, 0) := by decide
theorem test_add_A4 : after (exec (.add 1 0) (cells 0x7FFFFFFF 1)) row = some (0x80000000, 0x0BADF00D, 0) := by decide
theorem test_add_A67 : after (exec (.add 0 0) (cells 0x40000000 0)) row = some (0x80000000, 0x0BADF00D, 0) := by decide
theorem test_sub_A9 : after (exec (.sub 1 0) (cells 3 5)) row = some (0xFFFFFFFE, 0x0BADF00D, 0) := by decide
theorem test_sub_A10 : after (exec (.sub 1 0) (cells 0x80000000 1)) row = some (0x7FFFFFFF, 0x0BADF00D, 0) := by decide
theorem test_and_A13 : after (exec (.and 1 0) (cells 0xFF0F 0x0FF0)) row = some (0x0F00, 0x0BADF00D, 0) := by decide
theorem test_or_A16 : after (exec (.or 1 0) (cells 0xFF0F 0x0FF0)) row = some (0xFFFF, 0x0BADF00D, 0) := by decide
theorem test_xor_A18 : after (exec (.xor 1 0) (cells 0xFF0F 0x0FF0)) row = some (0xF0FF, 0x0BADF00D, 0) := by decide
theorem test_cmp_A24 : after (exec (.cmp 1 0) (cells 0x7FFFFFFF 0xFFFFFFFF)) row = some (0x7FFFFFFF, 0x0BADF00D, 2) := by
  decide
theorem test_cmp_A27 : after (exec (.cmp 1 0) ((cells 7 7).withSt 2)) row = some (7, 0x0BADF00D, 1) := by decide
theorem test_shl_A33 : after (exec (.shl 1 0) (cells 7 33)) row = some (14, 0x0BADF00D, 0) := by decide
theorem test_shl_A34 : after (exec (.shl 1 0) (cells 1 0xFFFFFFFF)) row = some (0x80000000, 0x0BADF00D, 0) := by decide
theorem test_shr_A36 : after (exec (.shr 1 0) (cells 0xFFFFFFF8 1)) row = some (0x7FFFFFFC, 0x0BADF00D, 0) := by decide
theorem test_shr_A39 : after (exec (.shr 1 0) (cells 0xFFFFFFFF 0xFFFFFFFF)) row = some (1, 0x0BADF00D, 0) := by decide
theorem test_sar_A41 : after (exec (.sar 1 0) (cells 0xFFFFFFF9 1)) row = some (0xFFFFFFFC, 0x0BADF00D, 0) := by decide
theorem test_sar_A45 : after (exec (.sar 1 0) (cells 0x7FFFFFFF 0xFFFFFFFF)) row = some (0, 0x0BADF00D, 0) := by decide
theorem test_mul_A53 : after (exec (.mul 1 0) (cells 3 0xFFFFFFFC)) row = some (0xFFFFFFF4, 0xFFFFFFFF, 0) := by decide
theorem test_mul_A54 : after (exec (.mul 1 0) (cells 123456789 1000)) row = some (0xBE991A08, 0x0000001C, 0) := by decide
theorem test_div_A57 : after (exec (.div 1 0) (cells (-7) 2)) row = some (0xFFFFFFFD, 0xFFFFFFFF, 0) := by decide
theorem test_div_A66 : after (exec (.div 1 0) (cells 0x80000000 0xFFFFFFFF)) (fun t => (row t, t.run))
    = some ((0x80000000, 0x0BADF00D, 0), .faulted (.divideOverflow 1 0) 0) := by decide
theorem test_mfx_A76 : after (exec (.mfx 2) ((cells 0 0).withX 0xFFFFFFFF)) (fun t => (t.memRead 2, t.x))
    = some (0xFFFFFFFF, 0xFFFFFFFF) := by decide
theorem test_mfx_A77 : after (exec (.mfx 0xFFFF) ((cells 0 0).withX 1)) (fun t => t.memRead 0xFFFF) = some 1 := by decide
theorem test_jmp_J4 : after (exec (.jmp (-3)) (jumping 3 5 0)) (·.pc) = some 1 := by decide
theorem test_jmp_J5 : after (exec (.jmp (-4)) (jumping 3 5 0)) (fun t => (t.pc, t.run))
    = some (4, .faulted (.invalidNegativeOffset (-4)) 3) := by decide
theorem test_jn_J12 : after (exec (.jn 1) (jumping 0 3 2)) (·.pc) = some 2 := by decide
theorem test_jn_J15 : after (exec (.jn 5) (jumping 0 3 0)) (·.run) = some (.faulted (.invalidPositiveOffset 5) 0) := by
  decide
theorem test_jle_J16 : after (exec (.jle 1) (jumping 0 3 1)) (·.pc) = some 2 := by decide
theorem test_jle_J18 : after (exec (.jle 1) (jumping 0 3 0)) (·.pc) = some 1 := by decide
theorem test_jz_J19 : after (exec (.jz 1) (jumping 5 7 1)) (·.pc) = some 7 := by decide
theorem test_jz_J21 : after (exec (.jz (-1)) (jumping 0 2 0)) (·.run) = some (.faulted (.invalidNegativeOffset (-1)) 0) := by
  decide

/-- V-S10's memory: "ABCDEFG" and a zero byte in the last two cells. -/
def lastCells : State := { jumping 0 1 0 with mem := [(65534, 0x41424344), (65535, 0x45464700)] }

theorem test_print_S10 : after (exec (.print 65534) lastCells) (·.pending)
    = some (some (.print [0x41, 0x42, 0x43, 0x44, 0x45, 0x46, 0x47])) := by decide
theorem test_print_S9 : after (exec (.print 65535) { jumping 0 1 0 with mem := [(65535, 0x41424344)] })
    (fun t => (t.pending, t.run)) = some (none, .faulted (.unterminatedString 65535) 0) := by decide
theorem test_utf8_S6 : (Request.print [0x48, 0xFF, 0x69]).text = ['H', Char.ofNat 0xFFFD, 'i'] := by decide
theorem test_utf8_S7 : (Request.print [0xC3, 0xA9]).text = [Char.ofNat 0xE9] := by decide

/-! ## The controller: V-P1, V-P2, S9 -/

theorem test_empty_program_halts_P1 : ∃ t, step State.reset.start = .next t ∧ t.run = .halted ∧ t.pc = 0 :=
  ⟨_, rfl, rfl, by rw [State.withRun_pc, State.finalDrain_eq]; rfl⟩
theorem test_run_command_starts : after (step State.reset) (·.run) = some .running := by decide
/-- V-P2, cycle 2: the request of cycle 1 is delivered, and then DIV faults. -/
theorem test_delivery_before_fault :
    after (step { State.ofProgram [.print 0, .div 1 0] with run := .running, pc := 1, pending := some (.print []) })
      (fun t => (t.hostCalls, t.pending, t.pc, t.run))
      = some ([.print []], none, 2, .faulted (.divisionByZero 1 0) 1) := by decide
theorem test_fetch_word_runs_first : after (step (State.reset.withFetchWord 24 0x20FFFF)) (·.run)
    = some (.faulted (.invalidNegativeOffset (-1)) 0) := by decide
theorem test_debug_port_P6_P7 : (State.reset.debugRead 65535 2, (cells 0 0).debugRead 0 1) = (.refused, .refused) := by
  decide

/-! ## The hypotheses of the statements are met -/

/-- A program of one instruction, Running, about to run it. -/
def about (i : Instr) : State := { State.ofProgram [i] with run := .running }

/-- The same while it executes. -/
def within (i : Instr) : State := { about i with pc := 1 }

/-- A variant whose declarations are the two bytes 30 kk. -/
def variant : SubVariant := ⟨0x30, fun b => b[1]?.map fun k => (k.toNat, 0, 2)⟩

theorem inv_about (i : Instr) : (about i).Inv :=
  { memory := rfl, status := .inl rfl, counter := Nat.zero_le _, table := rfl, frames := rfl
    slot := fun _ => rfl, ready := fun h => (nomatch h), halted := fun h => (nomatch h), faulted := fun _ _ h => (nomatch h) }

theorem inv_reset : State.reset.Inv :=
  { memory := rfl, status := .inl rfl, counter := Nat.zero_le _, table := rfl, frames := rfl
    slot := fun _ => rfl, ready := fun _ => rfl, halted := fun h => (nomatch h), faulted := fun _ _ h => (nomatch h) }

theorem witness_DecodeAndEncodeAgree : decodeOne [0x20, 0xFF, 0xFE, 0x01] = .ok (.jmp (-2)) 3 := by decide
theorem witness_LoadAndEncodeProgramAgree : load [0x20, 0x00, 0x00] = .ok [.jmp 0] [] := by decide
theorem witness_UnassignedOpcodesFailTheLoad :
    (Unassigned 0x01 ∧ Unassigned 0x0F ∧ Unassigned 0x1E ∧ Unassigned 0x1F ∧ Unassigned 0x24 ∧ Unassigned 0xFF)
      ∧ ¬ Unassigned 0x00 ∧ ¬ Unassigned 0x10 ∧ ¬ Unassigned 0x1D ∧ ¬ Unassigned 0x20 ∧ ¬ Unassigned 0x23 := by decide
theorem witness_TruncatedOperandsFailTheLoad :
    (0 < 1 ∧ 6 < (Instr.mov 1 2).size) ∧ load [0x20, 0xFF] = .error (Instr.jmp 0).truncationError := by decide
theorem witness_LoadReportsTheFirstError :
    load [0x20, 0, 0, 0x1F] = .error (.unknownOpcode 0x1F) ∧ decodeOne [0x1F] = .err (.unknownOpcode 0x1F) := by decide
/-- A declared JMP 0 at line 0, a plain MFX, and a declared NOP at line 2 (R62). -/
def declaredItems : List StreamItem :=
  [.declared [0x30, 0x07] 7 0 (.jmp 0), .plain (.mfx 1), .declared [0x30, 0x09] 9 0 (.jmp 0)]

theorem accepts_declaredItems (rest : List Byte) : Accepts variant declaredItems rest :=
  ⟨⟨rfl, rfl, rfl, rfl, trivial⟩, by decide⟩

/-- At the end of the stream, and before another declaration, each after declarations that have their bodies. -/
theorem witness_EmptySubroutineFailsTheLoad :
    Unassigned variant.opcode
      ∧ (Accepts variant declaredItems [0x30, 0x08] ∧ Declares variant [0x30, 0x08] 8 0 2
        ∧ ([0x30, 0x08] : List Byte).drop 2 = [])
      ∧ (Accepts variant declaredItems [0x30, 0x08, 0x30, 0x0A, 0x20, 0, 0]
        ∧ Declares variant [0x30, 0x08, 0x30, 0x0A, 0x20, 0, 0] 8 0 2
        ∧ (([0x30, 0x08, 0x30, 0x0A, 0x20, 0, 0] : List Byte).drop 2).head? = some variant.opcode) :=
  ⟨by decide, ⟨accepts_declaredItems _, ⟨rfl, rfl⟩, rfl⟩, ⟨accepts_declaredItems _, ⟨rfl, rfl⟩, rfl⟩⟩
/-- R63: the declaration 30 08 ends the stream, after a declaration that has its body. -/
theorem test_load_variant_empty_after_body :
    loadImage (some variant) [0x30, 0x07, 0x20, 0, 0, 0x30, 0x08] = .error .emptySubroutine := by decide
theorem witness_SubroutineVariantIsTransparent :
    Unassigned variant.opcode ∧ Accepts variant declaredItems []
      ∧ load [0x20, 0, 0] = .ok [.jmp 0] []
      ∧ loadImage (some variant) [0x30, 0x07, 0x20, 0, 0] = .ok [.jmp 0] [⟨7, 0, 0⟩]
      ∧ Accepts variant declaredItems ([0x30, 0x07] ++ encode (.mfx 2) ++ [])
      ∧ Declares variant ([0x30, 0x07] ++ encode (.mfx 2) ++ []) 7 0 2 ∧ 7 ∈ (rows 0 declaredItems).map (·.index) :=
  ⟨by decide, accepts_declaredItems _, by decide, by decide, accepts_declaredItems _, ⟨rfl, rfl⟩, by decide⟩
/-- R62: each row names the slot of its body instruction, and the declarations emit none. -/
theorem test_load_variant_rows :
    loadImage (some variant) [0x30, 0x07, 0x20, 0, 0, 0x1D, 0, 1, 0x30, 0x09, 0x20, 0, 0]
      = .ok [.jmp 0, .mfx 1, .jmp 0] [⟨7, 0, 0⟩, ⟨9, 2, 0⟩] := by decide
/-- Every failure of R62, at the bytes that have it. -/
theorem witness_VariantLoadReportsTheFirstError :
    Unassigned variant.opcode ∧ (∀ rest, Accepts variant declaredItems rest)
      ∧ FailsAt variant (rows 0 declaredItems) [0x1F] (.unknownOpcode 0x1F)
      ∧ FailsAt variant (rows 0 declaredItems) [0x30] .invalidSubroutineOperand
      ∧ FailsAt variant (rows 0 declaredItems) [0x30, 0x08] .emptySubroutine
      ∧ FailsAt variant (rows 0 declaredItems) [0x30, 0x08, 0x20] .invalidJumpOperand
      ∧ FailsAt variant (rows 0 declaredItems) [0x30, 0x09, 0x20, 0, 0] (.duplicateSubroutine 9) :=
  ⟨by decide, accepts_declaredItems, .plain (by decide) (by decide), .operand rfl rfl, .empty ⟨rfl, rfl⟩ (.inl rfl),
    .body (k := 8) (c := 0) (n := 2) ⟨rfl, rfl⟩ (by decide) (by decide),
    .duplicate (c := 0) (n := 2) (i := .jmp 0) (m := 3) ⟨rfl, rfl⟩ (by decide) (by decide)⟩
theorem witness_SubroutineTableCannotAffectARun :
    ∃ t, step (about (.cmp 0 1)) = .next t ∧ t.run = .running := ⟨_, rfl, rfl⟩
theorem witness_ResetStateIsZeroAndReady : load [0x1D, 0, 1] = .ok [.mfx 1] [] := by decide
theorem witness_ResetMeetsTheInvariant : boot [0x1D, 0, 1] = .ready (State.ofProgram [.mfx 1]) := by decide
theorem witness_StepKeepsTheInvariant : ∃ s t, s.Inv ∧ s.run = .running ∧ s.pc < s.progLen ∧ step s = .next t :=
  ⟨about (.cmp 0 1), _, inv_about _, rfl, by decide, rfl⟩
theorem witness_RunningMachineNeverSticks :
    (∃ s : State, s.Inv ∧ s.run = .ready) ∧ ∃ s : State, s.Inv ∧ s.run = .running :=
  ⟨⟨_, inv_reset, rfl⟩, ⟨_, inv_about (.jmp 0), rfl⟩⟩
theorem witness_StepRunsTheDecodedInstruction :
    ((about (.mul 1 0)).run = .running ∧ (about (.mul 1 0)).prog[(about (.mul 1 0)).pc]? = some (.mul 1 0))
      ∧ (decodeOne [0x1D, 0, 1, 0x20, 0, 0] = .ok (.mfx 1) 3
        ∧ load (encodeProgram [.jmp 0] ++ [0x1D, 0, 1, 0x20, 0, 0]) = .ok [.jmp 0, .mfx 1, .jmp 0] [])
      ∧ decodeTableWord 40 0x1B00010000 = some (.mul 1 0) := by decide
theorem witness_CycleAtTheEndHalts :
    (within (.jmp 0)).run = .running ∧ (within (.jmp 0)).pc = (within (.jmp 0)).progLen := by decide
/-- FINAL_DRAIN has one of its two values; the spec leaves open which. -/
theorem witness_finalDrain : Config.finalDrain = .deliver ∨ Config.finalDrain = .drop := by
  cases Config.finalDrain <;> simp
theorem witness_RunStateMovesAlongItsArrows :
    (∃ t, step State.reset = .next t) ∧ (∃ t, step (about (.jmp 0)) = .next t)
      ∧ State.reset.run = .ready ∧ (about (.jmp 0)).run ≠ .ready
      ∧ ((about (.jmp 0)).withRun .halted).run = .halted
      ∧ (((about (.jmp (-1))).advance).raise (.invalidNegativeOffset (-1))).run = .faulted (.invalidNegativeOffset (-1)) 0 :=
  ⟨⟨_, rfl⟩, ⟨_, rfl⟩, rfl, by decide, rfl, rfl⟩
theorem witness_RequestsAreDeliveredOnceInOrder :
    (∃ t, step (about (.print 0)) = .next t ∧ t.pending = some (.print []))
      ∧ (about (.print 0)).pc ≠ (about (.print 0)).progLen
      ∧ (∃ t e p, step (about (.div 0 0)) = .next t ∧ t.run = .faulted e p)
      ∧ ∃ t, step (within (.print 0)) = .next t ∧ (within (.print 0)).pc = (within (.print 0)).progLen :=
  ⟨⟨_, rfl, by decide⟩, by decide, ⟨_, _, _, rfl, rfl⟩, ⟨_, rfl, rfl⟩⟩
theorem witness_ProgramIsImmutableAndUnread :
    (∃ t, step (about (.jmp 0)) = .next t) ∧ [Instr.mfx 3].length = (about (.jmp 0)).prog.length := ⟨⟨_, rfl⟩, rfl⟩
theorem witness_PcMovesInThreeWays :
    (∃ t, step (about (.jz 0)) = .next t) ∧ (about (.jz 0)).prog[(about (.jz 0)).pc]? = some (.jz 0)
      ∧ ∃ s, boot [0x20, 0, 0] = .ready s := ⟨⟨_, rfl⟩, rfl, ⟨_, rfl⟩⟩
theorem witness_SelfJumpNeverEnds :
    let s : State := { about (.jmp 0) with prog := [.jmp 0, .jmp (-1)], pc := 1 }
    s.run = .running ∧ s.pending = none ∧ 1 ≤ s.pc ∧ s.prog[s.pc]? = some (.jmp (-1)) := by decide
theorem witness_FaultEntrySavesNothingElse :
    ∃ t, exec (.div 1 0) (within (.div 1 0)) = .next t ∧ (within (.div 1 0)).pc = 0 + 1
      ∧ (within (.div 1 0)).run = .running ∧ t.run = .faulted (.divisionByZero 1 0) 0 := ⟨_, rfl, rfl, rfl, rfl⟩
theorem witness_EachErrorHasItsCause :
    (within (.jmp (-1))).run = .running ∧ (within (.jmp (-1))).pc = 0 + 1
      ∧ (IsJump (.jmp (-1)) (-1) ∧ sint (-1 : Offset) < 0 ∧ ((0 : Nat) : Int) + sint (-1 : Offset) < 0)
      ∧ (0 < sint (1 : Offset) ∧ ((within (.jz 1)).progLen : Int) - 1 < ((0 : Nat) : Int) + sint (1 : Offset))
      ∧ (within (.div 1 0)).memRead 1 = 0 ∧ (cells 0x80000000 0xFFFFFFFF).memRead 0 = 0x80000000
      ∧ (cells 0x80000000 0xFFFFFFFF).memRead 1 = 0xFFFFFFFF
      ∧ 0x00#8 ∉ stringBytes { within (.print 65535) with mem := [(65535, 0x41424344)] } 65535 :=
  ⟨rfl, rfl, ⟨⟨.always, rfl⟩, by decide, by decide⟩, by decide, by decide, by decide, by decide, by decide⟩
theorem witness_OnlyCmpWritesTheFlags :
    (∃ t, exec (.sub 0 1) (within (.sub 0 1)) = .next t) ∧ (∀ src dest, Instr.sub 0 1 ≠ .cmp src dest)
      ∧ (∃ t, step (about (.sub 0 1)) = .next t)
      ∧ (∀ src dest, (about (.sub 0 1)).prog[(about (.sub 0 1)).pc]? ≠ some (.cmp src dest))
      ∧ ¬ ((about (.sub 0 1)).flagZ = true ∧ (about (.sub 0 1)).flagN = true) :=
  ⟨⟨_, rfl⟩, fun _ _ h => (nomatch h), ⟨_, rfl⟩, fun _ _ h => (nomatch h), by decide⟩
theorem witness_OnlyMulAndDivWriteXOnlyMfxReadsIt :
    (∃ t, exec (.mfx 0) (within (.mfx 0)) = .next t) ∧ (∀ src dest, Instr.mfx 0 ≠ .mul src dest ∧ Instr.mfx 0 ≠ .div src dest)
      ∧ ∀ dest, Instr.mul 0 1 ≠ .mfx dest :=
  ⟨⟨_, rfl⟩, fun _ _ => ⟨fun h => (nomatch h), fun h => (nomatch h)⟩, fun _ h => (nomatch h)⟩
theorem witness_AluSideEffects : IsAlu (.cmp 1 0) ∧ IsAlu (.mfx 0) ∧ ∀ src dest, Instr.mfx 0 ≠ .cmp src dest :=
  ⟨⟨_, _, _, rfl⟩, ⟨_, _, _, rfl⟩, fun _ _ h => (nomatch h)⟩
theorem witness_FrameOfMovJumpAndPrint :
    (∃ t, exec (.mov 1 0) (within (.mov 1 0)) = .next t) ∧ (IsJump (.jn 0) 0 ∧ ∃ t, exec (.jn 0) (within (.jn 0)) = .next t)
      ∧ ∃ t, exec (.print 0) (within (.print 0)) = .next t :=
  ⟨⟨_, rfl⟩, ⟨⟨_, rfl⟩, ⟨_, rfl⟩⟩, ⟨_, rfl⟩⟩
/-- The boundary of CMP's exact range: −2^31 − 0 is in it, and 2^31 − 1 − (−1) is not. -/
theorem witness_CmpSetsZAndN :
    (-2 ^ 31 ≤ sint ((cells 0x80000000 0).memRead 0) - sint ((cells 0x80000000 0).memRead 1)
      ∧ sint ((cells 0x80000000 0).memRead 0) - sint ((cells 0x80000000 0).memRead 1) < 2 ^ 31)
      ∧ ¬ sint ((cells 0x7FFFFFFF 0xFFFFFFFF).memRead 0) - sint ((cells 0x7FFFFFFF 0xFFFFFFFF).memRead 1) < 2 ^ 31 := by
  decide
theorem witness_DivGivesQuotientAndRemainder :
    (cells 0x80000000 1).memRead 1 ≠ 0
      ∧ ¬ ((cells 0x80000000 1).memRead 0 = 0x80000000 ∧ (cells 0x80000000 1).memRead 1 = 0xFFFFFFFF) := by decide
theorem witness_DivErrorsWriteNothing :
    ((cells 7 0).pc = 0 + 1 ∧ (cells 7 0).memRead 1 = 0)
      ∧ ((cells 0x80000000 0xFFFFFFFF).memRead 0 = 0x80000000 ∧ (cells 0x80000000 0xFFFFFFFF).memRead 1 = 0xFFFFFFFF) := by
  decide
/-- The lowest and the highest target of a jump at p = 3 with L = 5 (V-J4, V-J7), and o = 0. -/
theorem witness_JmpLandsOnItsTarget :
    (jumping 3 5 0).pc = 3 + 1 ∧ 3 < (jumping 3 5 0).progLen ∧ InBounds 3 5 (sint (-3 : Offset))
      ∧ InBounds 3 5 (sint (1 : Offset)) ∧ InBounds 3 5 (sint (0 : Offset)) := by
  unfold InBounds; decide
theorem witness_ConditionalJumpsFollowTheFlags :
    (jumping 3 5 2).pc = 3 + 1 ∧ 3 < (jumping 3 5 2).progLen ∧ InBounds 3 5 (sint (-3 : Offset))
      ∧ (jumping 3 5 2).st.getLsbD 1 = true ∧ (jumping 3 5 1).st.getLsbD 0 = true ∧ (jumping 3 5 0).st.getLsbD 0 = false := by
  unfold InBounds; decide
/-- Just outside both bounds (V-J5, V-J8). -/
theorem witness_JumpOutOfBoundsFaultsTakenOrNot :
    IsJump (.jz (-4)) (-4) ∧ (jumping 3 5 0).pc = 3 + 1
      ∧ (sint (-4 : Offset) < 0 ∧ ((3 : Nat) : Int) + sint (-4 : Offset) < 0)
      ∧ IsJump (.jz 2) 2 ∧ 0 < sint (2 : Offset)
      ∧ ((jumping 3 5 0).progLen : Int) - 1 < ((3 : Nat) : Int) + sint (2 : Offset) :=
  ⟨⟨_, rfl⟩, rfl, by decide, ⟨_, rfl⟩, by decide, by decide⟩
theorem witness_JmpZeroIsNop :
    (about (.jmp 0)).run = .running ∧ (about (.jmp 0)).pending = none
      ∧ (about (.jmp 0)).prog[(about (.jmp 0)).pc]? = some (.jmp 0) := by decide
theorem witness_PrintRequestsTheStringAtAddr :
    lastCells.pc = 0 + 1 ∧ 0x00#8 ∈ stringBytes lastCells 65534
      ∧ 0x00#8 ∉ stringBytes { lastCells with mem := [(65535, 0x41424344)] } 65535 := by decide
theorem witness_DebugPortReadsCellsOutsideARun :
    State.reset.run ≠ .running ∧ 65535 + 1 ≤ 65536 ∧ 65536 < 65535 + 2 ∧ (cells 0 0).run = .running := by decide
theorem witness_PrintedStringHasNoNul :
    lastCells.cString 65535 = some [0x45, 0x46, 0x47] ∧ 0x00#8 ∉ ([0x45, 0x46, 0x47] : List Byte) := by decide

end Sys2Proof.Tests
end

/-! # Who moves pc, who writes ST, and the program (10_state.md): the rules, then the three statements -/

namespace Sys2Proof.Machine

open Sys2Proof.Claims

/-! ## From a step to one instruction -/

theorem Effect.of_exec {i : Instr} {s t : State} (h : exec i s = .next t) : Effect i s t := by
  obtain ⟨u, hu, he⟩ := exec_effect i s
  obtain rfl : u = t := Host.Outcome.next.inj (hu.symm.trans h)
  exact he

theorem step_eq_exec {s : State} {i : Instr} (hr : s.run = .running) (hf : s.fetch = some i) :
    step s = exec i s.atExecute := by
  have hp : s.pc ≠ s.progLen := (State.fetch_lt hf).ne
  have hc : step s = cycle s := by simp only [step, hr]
  simp only [hc, cycle, if_neg hp, hf, State.deliver_advance_eq]

/-! ## The end of the program leaves the program, pc and ST -/

@[simp] theorem State.finalDrain_prog (s : State) : s.finalDrain.prog = s.prog := by rw [State.finalDrain_eq]
@[simp] theorem State.finalDrain_pc (s : State) : s.finalDrain.pc = s.pc := by rw [State.finalDrain_eq]
@[simp] theorem State.finalDrain_st (s : State) : s.finalDrain.st = s.st := by rw [State.finalDrain_eq]

/-! ## The program (R28) -/

theorem Effect.prog_eq {i : Instr} {s t : State} (h : Effect i s t) : t.prog = s.prog := by
  cases h <;> rfl

theorem step_prog {s t : State} (h : step s = .next t) : t.prog = s.prog := by
  obtain ⟨-, rfl⟩ | ⟨-, -, rfl⟩ | ⟨-, -, i, -, he⟩ := step_cases h
  · exact State.start_prog s
  · simp
  · exact (Effect.of_exec he).prog_eq

/-- The bounds check is the one place that looks at the program, and it looks at L alone (R86). -/
theorem jumpCheck_prog (o : Int) (s : State) {other : List Instr} (hlen : other.length = s.prog.length) :
    jumpCheck o { s with prog := other } = jumpCheck o s := by
  have hL : State.progLen { s with prog := other } = s.progLen := hlen
  unfold jumpCheck
  rw [hL]

theorem Cond.holds_prog (c : Cond) (s : State) (other : List Instr) :
    Cond.holds c { s with prog := other } = Cond.holds c s := by
  cases c <;> rfl

theorem jumpExec_prog (c : Cond) (o : Offset) {s t : State} {other : List Instr}
    (hlen : other.length = s.prog.length) (h : jumpExec c o s = .next t) :
    jumpExec c o { s with prog := other } = .next { t with prog := other } := by
  unfold jumpExec at h ⊢
  rw [jumpCheck_prog _ s hlen, Cond.holds_prog]
  cases hc : jumpCheck (sint o) s with
  | some e =>
    rw [hc] at h
    cases h; rfl
  | none =>
    rw [hc] at h
    cases h
    cases Cond.holds c s <;> rfl

theorem execPrint_prog (a : Addr) {s t : State} (other : List Instr) (h : execPrint a s = .next t) :
    execPrint a { s with prog := other } = .next { t with prog := other } := by
  have hs : State.cString { s with prog := other } a = s.cString a := rfl
  unfold execPrint at h ⊢
  rw [hs]
  cases hb : s.cString a with
  | none =>
    rw [hb] at h
    cases h; rfl
  | some buf =>
    rw [hb] at h
    cases h; rfl

theorem execDiv_prog (src dest : Addr) {s t : State} (other : List Instr) (h : execDiv src dest s = .next t) :
    execDiv src dest { s with prog := other } = .next { t with prog := other } := by
  have hm (a : Addr) : State.memRead { s with prog := other } a = s.memRead a := rfl
  unfold execDiv at h ⊢
  simp only [hm]
  dsimp only at h
  split at h
  · next hb => cases h; rw [if_pos hb]; rfl
  · next hb =>
    rw [if_neg hb]
    split at h
    · next ho => cases h; rw [if_pos ho]; rfl
    · next ho => cases h; rw [if_neg ho]; rfl

/-- An instruction does the same with another program of the same length in its place. -/
theorem exec_prog (i : Instr) {s t : State} {other : List Instr} (hlen : other.length = s.prog.length)
    (h : exec i s = .next t) : exec i { s with prog := other } = .next { t with prog := other } := by
  cases i with
  | print a => exact execPrint_prog a other h
  | div src dest => exact execDiv_prog src dest other h
  | jmp o => exact jumpExec_prog .always o hlen h
  | jn o => exact jumpExec_prog .neg o hlen h
  | jle o => exact jumpExec_prog .negOrZero o hlen h
  | jz o => exact jumpExec_prog .zero o hlen h
  | mov | assign | add | sub | and | or | xor | cmp | shl | shr | sar | mul | mfx => cases h; rfl

/-! ## The program counter (R27) -/

theorem isJump_ofCond (c : Cond) (o : Offset) : IsJump (Instr.ofCond c o) o :=
  ⟨c, by cases c <;> rfl⟩

/-- An instruction leaves pc, or is a jump within bounds and sets pc to its target. -/
theorem Effect.pc_cases {i : Instr} {s t : State} (h : Effect i s t) :
    t.pc = s.pc
      ∨ ∃ o, IsJump i o ∧ jumpCheck (sint o) s = none ∧ t.pc = jumpTarget (sint o) s := by
  cases h with
  | goto c o hi hc => exact .inr ⟨o, hi ▸ isJump_ofCond c o, hc, rfl⟩
  | _ => exact .inl rfl

/-- The target of a jump that passed the check is p + 1 + o, between 1 and L (R27, R85, R86). -/
theorem jumpTarget_bounds {o : Int} {s : State} (hc : jumpCheck o s = none) (h1 : 1 ≤ s.pc) (hL : s.pc ≤ s.progLen) :
    (jumpTarget o s : Int) = s.pc + o ∧ 1 ≤ jumpTarget o s ∧ jumpTarget o s ≤ s.progLen := by
  obtain ⟨hneg, hpos⟩ := (jumpCheck_eq_none o s).1 hc
  unfold jumpTarget
  omega

theorem boot_pc {image : List Byte} {s : State} (h : boot image = .ready s) : s.pc = 0 := by
  unfold boot at h
  split at h <;> cases h
  rfl

/-! ## The flags (R22) -/

theorem Effect.st_cases {i : Instr} {s t : State} (h : Effect i s t) :
    t.st = s.st ∨ ∃ src d, i = .cmp src d ∧ t.st = cmpFlags s.st (s.memRead d) (s.memRead src) := by
  cases h with
  | flags src d hi => exact .inr ⟨src, d, hi, rfl⟩
  | _ => exact .inl rfl

theorem step_st_cases {s t : State} (h : step s = .next t) :
    t.st = s.st
      ∨ ∃ src d, s.fetch = some (.cmp src d) ∧ t.st = cmpFlags s.st (s.memRead d) (s.memRead src) := by
  obtain ⟨-, rfl⟩ | ⟨-, -, rfl⟩ | ⟨-, -, i, hf, he⟩ := step_cases h
  · exact .inl (State.start_st s)
  · exact .inl (by simp)
  · obtain hst | ⟨src, d, rfl, hst⟩ := (Effect.of_exec he).st_cases
    · exact .inl hst
    · exact .inr ⟨src, d, hf, hst⟩

/-- Z asks for a = b, and then the difference, whose sign N is, is zero (R77). -/
theorem cmpFlags_not_both (st : Byte) (a b : Word) :
    ¬ ((cmpFlags st a b).getLsbD 0 = true ∧ (cmpFlags st a b).getLsbD 1 = true) := by
  rw [cmpFlags_eq, setFlags_z, setFlags_n, decide_eq_true_eq, decide_eq_true_eq]
  rintro ⟨rfl, hn⟩
  simp at hn

end Sys2Proof.Machine

namespace Sys2Proof.Proofs

open Sys2Proof.Machine Sys2Proof.Claims

/-- Settles O18: by `step_prog`, and by `exec_prog` for the instruction alone. -/
theorem programIsImmutableAndUnread : Obligations.ProgramIsImmutableAndUnread := by
  refine ⟨fun s t h => ⟨step_prog h, congrArg List.length (step_prog h)⟩, fun i s => ?_⟩
  obtain ⟨t, ht, he⟩ := exec_effect i s
  exact ⟨t, ht, he.prog_eq, fun other hlen => exec_prog i hlen ht⟩

/-- Settles O19: the cases of a step, and for its instruction the cases of pc. -/
theorem pcMovesInThreeWays : Obligations.PcMovesInThreeWays := by
  refine ⟨fun s t h => ?_, fun s i hr hf => ⟨s.atExecute, rfl, step_eq_exec hr hf⟩, rfl, fun _ _ => boot_pc⟩
  obtain ⟨hr, rfl⟩ | ⟨-, hp, rfl⟩ | ⟨-, hlt, i, hf, he⟩ := step_cases h
  · exact .inl ⟨State.start_pc s, .inl hr⟩
  · exact .inl ⟨by simp, .inr hp⟩
  · obtain hpc | ⟨o, hj, hc, hpc⟩ := (Effect.of_exec he).pc_cases
    · exact .inr (.inl ⟨hlt, hpc⟩)
    · obtain ⟨htarget, hlow, hhigh⟩ := jumpTarget_bounds hc (Nat.le_add_left 1 s.pc) hlt
      exact .inr (.inr ⟨hlt, i, o, hf, hj, hpc ▸ htarget, hpc ▸ hlow, hpc ▸ hhigh⟩)

/-- Settles O23: an instruction that changes ST is a CMP, and CMP's byte has at most one flag. -/
theorem onlyCmpWritesTheFlags : Obligations.OnlyCmpWritesTheFlags := by
  refine ⟨fun i s t h hi => ?_, fun s t h hi => ?_, fun src dest s => ⟨_, rfl, cmpFlags_not_both _ _ _⟩,
    fun s t hs h => ?_, rfl⟩
  · exact (Effect.of_exec h).st_cases.resolve_right fun ⟨src, d, hcmp, _⟩ => hi src d hcmp
  · exact (step_st_cases h).resolve_right fun ⟨src, d, hcmp, _⟩ => hi src d hcmp
  · unfold State.flagZ State.flagN at hs ⊢
    obtain hst | ⟨src, d, -, hst⟩ := step_st_cases h <;> rw [hst]
    · exact hs
    · exact cmpFlags_not_both _ _ _

end Sys2Proof.Proofs

/-! # What fails a load (30_encoding.md): the decoder's cases, the two load loops, then the three statements -/

namespace Sys2Proof

open Sys2Proof.Claims

/-! ## The opcode map (R55, R57) -/

/-- The unassigned bytes are the ones that take none of DecodeOne's branches. -/
theorem unassigned_iff (op : Byte) :
    Unassigned op ↔ op ≠ 0x00#8 ∧ op ≠ 0x10#8 ∧ aluOpOf op = none ∧ op ≠ 0x1D#8 ∧ condOf op = none := by
  revert op
  decide

theorem unassigned_count : ((List.range 256).filter fun k => Unassigned (BitVec.ofNat 8 k)).length = 237 := by
  rfl

theorem encode_ofAlu {op : Byte} {a : AluOp} (h : aluOpOf op = some a) (src dest : Addr) :
    encode (Instr.ofAlu a src dest) = encodeF5 op src dest := by
  have hop : op = BitVec.ofNat 8 op.toNat := by simp
  unfold aluOpOf at h
  split at h <;> cases h <;> (next hnum => rw [hop, hnum]; rfl)

theorem encode_ofCond {op : Byte} {c : Cond} (h : condOf op = some c) (o : Offset) :
    encode (Instr.ofCond c o) = op :: bytes16 o := by
  have hop : op = BitVec.ofNat 8 op.toNat := by simp
  unfold condOf at h
  split at h <;> cases h <;> (next hnum => rw [hop, hnum]; rfl)

/-! ## Operand bytes: whole, or cut short (R56, R58) -/

theorem exists_bytes16 {b : List Byte} (h : b.length = 2) : ∃ v, bytes16 v = b := by
  obtain ⟨hi, lo, rfl⟩ := List.length_eq_two.1 h
  exact ⟨be16 hi lo, bytes16_be16 hi lo⟩

theorem exists_bytes32 {b : List Byte} (h : b.length = 4) : ∃ v, bytes32 v = b := by
  match b, h with
  | [b1, b2, b3, b4], _ => exact ⟨be32 b1 b2 b3 b4, bytes32_be32 b1 b2 b3 b4⟩

theorem decodePrint_bytes16 (a : Addr) (rest : List Byte) : decodePrint (bytes16 a ++ rest) = .ok (.print a) 3 := by
  simp [decodePrint, bytes16]

theorem decodeMov_bytes (l : Word) (d : Addr) (rest : List Byte) :
    decodeMov (bytes32 l ++ bytes16 d ++ rest) = .ok (.mov l d) 7 := by
  simp [decodeMov, bytes32, bytes16]

theorem decodeAlu_bytes (op : AluOp) (s d : Addr) (rest : List Byte) :
    decodeAlu op (bytes16 s ++ bytes16 d ++ rest) = .ok (Instr.ofAlu op s d) 5 := by
  simp [decodeAlu, bytes16]

theorem decodeMfx_bytes16 (d : Addr) (rest : List Byte) : decodeMfx (bytes16 d ++ rest) = .ok (.mfx d) 3 := by
  simp [decodeMfx, bytes16]

theorem decodeJump_bytes16 (c : Cond) (o : Offset) (rest : List Byte) :
    decodeJump c (bytes16 o ++ rest) = .ok (Instr.ofCond c o) 3 := by
  simp [decodeJump, bytes16]

theorem decodePrint_short {b : List Byte} (h : b.length < 2) : decodePrint b = .err .invalidPrintOperand := by
  unfold decodePrint
  split
  · simp only [List.length_cons] at h; omega
  · rfl

theorem decodeMov_short {b : List Byte} (h : b.length < 6) : decodeMov b = .err .invalidMovOperand := by
  unfold decodeMov
  split
  · simp only [List.length_cons] at h; omega
  · rfl

theorem decodeAlu_short (op : AluOp) {b : List Byte} (h : b.length < 4) :
    decodeAlu op b = .err .invalidAluOperand := by
  unfold decodeAlu
  split
  · simp only [List.length_cons] at h; omega
  · rfl

theorem decodeMfx_short {b : List Byte} (h : b.length < 2) : decodeMfx b = .err .invalidAluOperand := by
  unfold decodeMfx
  split
  · simp only [List.length_cons] at h; omega
  · rfl

theorem decodeJump_short (c : Cond) {b : List Byte} (h : b.length < 2) :
    decodeJump c b = .err .invalidJumpOperand := by
  unfold decodeJump
  split
  · simp only [List.length_cons] at h; omega
  · rfl

/-! ## DecodeOne on an encoding, on one cut short, and on an unassigned opcode -/

@[simp] theorem encode_length (i : Instr) : (encode i).length = i.size := by
  cases i <;> rfl

theorem decodeOne_encode_append (i : Instr) (rest : List Byte) : decodeOne (encode i ++ rest) = .ok i i.size := by
  cases i with
  | print a => exact decodePrint_bytes16 a rest
  | mov l d => exact decodeMov_bytes l d rest
  | assign s d | add s d | sub s d | and s d | or s d | xor s d | cmp s d | shl s d | shr s d | sar s d | mul s d
  | div s d => exact decodeAlu_bytes _ s d rest
  | mfx d => exact decodeMfx_bytes16 d rest
  | jmp o | jn o | jle o | jz o => exact decodeJump_bytes16 _ o rest

theorem decodeOne_encode_take (i : Instr) {k : Nat} (h0 : 0 < k) (hk : k < i.size) :
    decodeOne ((encode i).take k) = .err i.truncationError := by
  obtain ⟨m, rfl⟩ : ∃ m, k = m + 1 := ⟨k - 1, by omega⟩
  have short (operands : List Byte) : (operands.take m).length < i.size - 1 := by
    rw [List.length_take]; omega
  cases i with
  | print => exact decodePrint_short (short _)
  | mov => exact decodeMov_short (short _)
  | assign | add | sub | and | or | xor | cmp | shl | shr | sar | mul | div => exact decodeAlu_short _ (short _)
  | mfx => exact decodeMfx_short (short _)
  | jmp | jn | jle | jz => exact decodeJump_short _ (short _)

theorem decodeOne_unassigned {op : Byte} (h : Unassigned op) (rest : List Byte) :
    decodeOne (op :: rest) = .err (.unknownOpcode op) := by
  obtain ⟨hprint, hmov, halu, hmfx, hjump⟩ := (unassigned_iff op).1 h
  simp only [decodeOne, if_neg hprint, if_neg hmov, halu, if_neg hmfx, hjump]

/-! ## What stands at the front of a byte string -/

/-- The four things a byte string can begin with, each with DecodeOne's answer (R56 to R58). -/
inductive Front : List Byte → DecodeResult → Prop where
  | atEnd : Front [] .noOpcode
  | whole (i : Instr) (rest : List Byte) : Front (encode i ++ rest) (.ok i i.size)
  | cut (i : Instr) (k : Nat) (pos : 0 < k) (short : k < i.size) : Front ((encode i).take k) (.err i.truncationError)
  | unassigned (op : Byte) (rest : List Byte) (illegal : Unassigned op) :
      Front (op :: rest) (.err (.unknownOpcode op))

theorem Front.decodeOne_eq {b : List Byte} {r : DecodeResult} (h : Front b r) : decodeOne b = r := by
  cases h with
  | atEnd => rfl
  | whole i rest => exact decodeOne_encode_append i rest
  | cut i k pos short => exact decodeOne_encode_take i pos short
  | unassigned op rest illegal => exact decodeOne_unassigned illegal rest

/-- The format of an assigned opcode: with any operand bytes of the format's length it is an instruction's encoding. -/
theorem exists_format_of_assigned {op : Byte} (h : ¬ Unassigned op) :
    ∃ width, ∀ operands : List Byte, operands.length = width → ∃ i, encode i = op :: operands := by
  by_cases hprint : op = 0x00#8
  · refine ⟨2, fun operands hlen => ?_⟩
    obtain ⟨a, rfl⟩ := exists_bytes16 hlen
    exact ⟨.print a, by rw [hprint]; rfl⟩
  by_cases hmov : op = 0x10#8
  · refine ⟨6, fun operands hlen => ?_⟩
    obtain ⟨l, hl⟩ := exists_bytes32 (b := operands.take 4) (by simp [hlen])
    obtain ⟨d, hd⟩ := exists_bytes16 (b := operands.drop 4) (by simp [hlen])
    exact ⟨.mov l d, by rw [hmov, ← List.take_append_drop 4 operands, ← hl, ← hd]; rfl⟩
  by_cases hmfx : op = 0x1D#8
  · refine ⟨2, fun operands hlen => ?_⟩
    obtain ⟨d, rfl⟩ := exists_bytes16 hlen
    exact ⟨.mfx d, by rw [hmfx]; rfl⟩
  cases halu : aluOpOf op with
  | some a =>
    refine ⟨4, fun operands hlen => ?_⟩
    obtain ⟨s, hs⟩ := exists_bytes16 (b := operands.take 2) (by simp [hlen])
    obtain ⟨d, hd⟩ := exists_bytes16 (b := operands.drop 2) (by simp [hlen])
    exact ⟨Instr.ofAlu a s d, by rw [encode_ofAlu halu, encodeF5, hs, hd, List.take_append_drop]⟩
  | none =>
    cases hjump : condOf op with
    | some c =>
      refine ⟨2, fun operands hlen => ?_⟩
      obtain ⟨o, rfl⟩ := exists_bytes16 hlen
      exact ⟨Instr.ofCond c o, encode_ofCond hjump o⟩
    | none => exact absurd ((unassigned_iff op).2 ⟨hprint, hmov, halu, hmfx, hjump⟩) h

/-- An assigned opcode leads a whole instruction, or, where operand bytes are missing, one cut short (zero bytes
complete it). -/
theorem exists_front_of_format {op : Byte} {width : Nat}
    (h : ∀ operands : List Byte, operands.length = width → ∃ i, encode i = op :: operands) (rest : List Byte) :
    ∃ r, Front (op :: rest) r := by
  obtain hwhole | hcut := le_or_gt width rest.length
  · obtain ⟨i, hi⟩ := h (rest.take width) (List.length_take_of_le hwhole)
    have hb : op :: rest = encode i ++ rest.drop width := by simp [hi]
    exact ⟨_, hb ▸ Front.whole i (rest.drop width)⟩
  · obtain ⟨i, hi⟩ := h (rest ++ List.replicate (width - rest.length) 0) (by simp; omega)
    have hsize : i.size = width + 1 := by
      rw [← encode_length, hi]; simp; omega
    have hb : op :: rest = (encode i).take (rest.length + 1) := by simp [hi]
    exact ⟨_, hb ▸ Front.cut i (rest.length + 1) (Nat.succ_pos _) (by omega)⟩

theorem exists_front (b : List Byte) : ∃ r, Front b r := by
  cases b with
  | nil => exact ⟨_, .atEnd⟩
  | cons op rest =>
    by_cases h : Unassigned op
    · exact ⟨_, .unassigned op rest h⟩
    · obtain ⟨width, hformat⟩ := exists_format_of_assigned h
      exact exists_front_of_format hformat rest

theorem decodeOne_eq_iff {b : List Byte} {r : DecodeResult} : decodeOne b = r ↔ Front b r := by
  refine ⟨fun h => ?_, Front.decodeOne_eq⟩
  obtain ⟨r', hr'⟩ := exists_front b
  exact (hr'.decodeOne_eq.symm.trans h) ▸ hr'

theorem decodeOne_ok {b : List Byte} {i : Instr} {n : Nat} (h : decodeOne b = .ok i n) :
    n = (encode i).length ∧ encode i ++ b.drop n = b := by
  cases decodeOne_eq_iff.1 h with
  | whole i rest => simp [← encode_length]

theorem decodeOne_noOpcode {b : List Byte} (h : decodeOne b = .noOpcode) : b = [] := by
  cases decodeOne_eq_iff.1 h
  rfl

theorem decodeOne_err_cases {b : List Byte} {e : LoadError} (h : decodeOne b = .err e) :
    (∃ (i : Instr) (k : Nat), 0 < k ∧ k < i.size ∧ b = (encode i).take k ∧ e = i.truncationError)
      ∨ ∃ (op : Byte) (rest : List Byte), Unassigned op ∧ b = op :: rest ∧ e = .unknownOpcode op := by
  cases decodeOne_eq_iff.1 h with
  | cut i k pos short => exact .inl ⟨i, k, pos, short, rfl, rfl⟩
  | unassigned op rest illegal => exact .inr ⟨op, rest, illegal, rfl, rfl⟩

theorem Instr.truncationError_ne_unknownOpcode (i : Instr) (op : Byte) : i.truncationError ≠ .unknownOpcode op := by
  cases i <;> exact nofun

theorem Instr.truncationError_ne_emptySubroutine (i : Instr) : i.truncationError ≠ .emptySubroutine := by
  cases i <;> exact nofun

theorem decodeOne_unknownOpcode {b : List Byte} {op : Byte} (h : decodeOne b = .err (.unknownOpcode op)) :
    Unassigned op ∧ b.head? = some op := by
  obtain ⟨i, k, -, -, -, he⟩ | ⟨op', rest, hop, rfl, he⟩ := decodeOne_err_cases h
  · exact absurd he.symm (i.truncationError_ne_unknownOpcode op)
  · cases he
    exact ⟨hop, rfl⟩

/-- EmptySubroutine is the load loop's own error. -/
theorem decodeOne_ne_emptySubroutine (b : List Byte) : decodeOne b ≠ .err .emptySubroutine := by
  intro h
  obtain ⟨i, -, -, -, -, he⟩ | ⟨op, -, -, -, he⟩ := decodeOne_err_cases h
  · exact i.truncationError_ne_emptySubroutine he.symm
  · cases he

theorem head?_encode_append_ne {op : Byte} (h : Unassigned op) (i : Instr) (rest : List Byte) :
    (encode i ++ rest).head? ≠ some op := by
  intro hhead
  obtain ⟨tail, htail⟩ := List.head?_eq_some_iff.1 hhead
  have hok := decodeOne_encode_append i rest
  rw [htail, decodeOne_unassigned h] at hok
  cases hok

/-! ## The load loop (R48) -/

/-- What bounds the passes of a load loop by the image's bytes (log entry 19). -/
theorem length_le_length_flatMap {α β : Type} {f : α → List β} (h : ∀ a, f a ≠ []) (l : List α) :
    l.length ≤ (l.flatMap f).length := by
  induction l with
  | nil => exact Nat.le_refl 0
  | cons a l ih =>
    have := List.length_pos_iff.2 (h a)
    simp only [List.flatMap_cons, List.length_append, List.length_cons]
    omega

theorem loadLoop_encode_append (fuel : Nat) (i : Instr) (rest : List Byte) (prog : List Instr) :
    loadLoop (fuel + 1) (encode i ++ rest) prog = loadLoop fuel rest (prog ++ [i]) := by
  simp only [loadLoop, decodeOne_encode_append, List.drop_left' (encode_length i)]

theorem loadLoop_encodeProgram_append (before : List Instr) (fuel : Nat) (rest : List Byte) (prog : List Instr) :
    loadLoop (before.length + fuel) (encodeProgram before ++ rest) prog = loadLoop fuel rest (prog ++ before) := by
  induction before generalizing prog with
  | nil => simp
  | cons i is ih =>
    rw [List.length_cons, Nat.succ_add, encodeProgram_cons, List.append_assoc, loadLoop_encode_append, ih,
      List.append_assoc, List.singleton_append]

theorem load_eq_loadLoop (image : List Byte) : load image = loadLoop (image.length + 1) image [] := rfl

/-- A load fails where DecodeOne fails, after any loaded instructions. -/
theorem load_error_of_decodeOne_err {rest : List Byte} {e : LoadError} (h : decodeOne rest = .err e)
    (before : List Instr) : load (encodeProgram before ++ rest) = .error e := by
  have hle : before.length ≤ (encodeProgram before).length := length_le_length_flatMap encode_ne_nil before
  obtain ⟨fuel, hfuel⟩ : ∃ fuel, (encodeProgram before ++ rest).length + 1 = before.length + (fuel + 1) :=
    ⟨(encodeProgram before ++ rest).length - before.length, by rw [List.length_append]; omega⟩
  rw [load_eq_loadLoop, hfuel, loadLoop_encodeProgram_append, loadLoop, h]

theorem loadLoop_error {fuel : Nat} {b : List Byte} {prog : List Instr} {e : LoadError}
    (h : loadLoop fuel b prog = .error e) :
    ∃ (before : List Instr) (rest : List Byte), b = encodeProgram before ++ rest ∧ decodeOne rest = .err e := by
  induction fuel generalizing b prog with
  | zero => cases h
  | succ fuel ih =>
    rw [loadLoop] at h
    cases hdec : decodeOne b with
    | noOpcode => rw [hdec] at h; cases h
    | err e' =>
      rw [hdec] at h
      cases h
      exact ⟨[], b, rfl, hdec⟩
    | ok i n =>
      rw [hdec] at h
      obtain ⟨before, rest, hb, herr⟩ := ih h
      refine ⟨i :: before, rest, ?_, herr⟩
      rw [encodeProgram_cons, List.append_assoc, ← hb, (decodeOne_ok hdec).2]

/-! ## A stream with declarations -/

@[simp] theorem stream_nil (rest : List Byte) : stream [] rest = rest := rfl

@[simp] theorem stream_cons (item : StreamItem) (items : List StreamItem) (rest : List Byte) :
    stream (item :: items) rest = item.bytes ++ stream items rest := by
  simp [stream]

theorem reads_cons (v : SubVariant) (item : StreamItem) (items : List StreamItem) (rest : List Byte) :
    Reads v (item :: items) rest ↔ Reads v [item] (stream items rest) ∧ Reads v items rest := by
  cases item <;> simp [Reads, and_assoc]

/-- The table after a pass over `item` and then the passes over `items`: the program grows by one line at a pass. -/
theorem append_rows_cons (tab : List SubEntry) (prog : List Instr) (item : StreamItem) (items : List StreamItem) :
    tab ++ rows prog.length (item :: items)
      = tab ++ rows prog.length [item] ++ rows (prog ++ [item.instr]).length items := by
  cases item <;> simp [rows]

theorem nodup_index_append_singleton (tab : List SubEntry) (row : SubEntry) :
    ((tab ++ [row]).map (·.index)).Nodup ↔ row.index ∉ tab.map (·.index) ∧ (tab.map (·.index)).Nodup := by
  rw [List.map_append, List.map_singleton, ← List.concat_eq_append, List.nodup_concat]

theorem StreamItem.bytes_ne_nil (item : StreamItem) : item.bytes ≠ [] := by
  cases item with
  | plain i => exact encode_ne_nil i
  | declared decl k c i => exact List.append_ne_nil_of_right_ne_nil decl (encode_ne_nil i)

/-! ## The load loop of the variant (R62): the passes that fail at a declaration -/

theorem loadSubLoop_invalidOperand (v : SubVariant) (fuel : Nat) {b : List Byte} (prog : List Instr)
    (subtab : List SubEntry) (decl : b.head? = some v.opcode) (bad : v.decode b = none) :
    loadSubLoop v (fuel + 1) b prog subtab = .error .invalidSubroutineOperand := by
  obtain ⟨bs, rfl⟩ := List.head?_eq_some_iff.1 decl
  simp only [loadSubLoop, if_true, bad]

theorem loadSubLoop_emptySubroutine {v : SubVariant} (fuel : Nat) {b : List Byte} (prog : List Instr)
    (subtab : List SubEntry) {k c n : Nat} (decl : Declares v b k c n)
    (bad : b.drop n = [] ∨ (b.drop n).head? = some v.opcode) :
    loadSubLoop v (fuel + 1) b prog subtab = .error .emptySubroutine := by
  obtain ⟨hhead, hread⟩ := decl
  obtain ⟨bs, rfl⟩ := List.head?_eq_some_iff.1 hhead
  simp only [loadSubLoop, if_true, hread]
  obtain hnil | hdecl := bad
  · rw [hnil]
  · obtain ⟨body, hbody⟩ := List.head?_eq_some_iff.1 hdecl
    simp only [hbody, if_true]

/-! ## The load loop of the variant: what it accepts -/

theorem any_index_eq_true_iff (tab : List SubEntry) (k : Nat) :
    tab.any (fun row => row.index == k) = true ↔ k ∈ tab.map (·.index) := by
  simp

/-- A pass over an item that the variant reads, and that declares no index again. -/
theorem loadSubLoop_item {v : SubVariant} (hv : Unassigned v.opcode) (fuel : Nat) {item : StreamItem}
    {rest : List Byte} {prog : List Instr} {tab : List SubEntry} (hread : Reads v [item] rest)
    (hnodup : ((tab ++ rows prog.length [item]).map (·.index)).Nodup) :
    loadSubLoop v (fuel + 1) (item.bytes ++ rest) prog tab
      = loadSubLoop v fuel rest (prog ++ [item.instr]) (tab ++ rows prog.length [item]) := by
  have hne (i : Instr) : encode i ++ rest ≠ [] := List.append_ne_nil_of_left_ne_nil (encode_ne_nil i) rest
  cases item with
  | plain i =>
    rw [StreamItem.bytes, loadSubLoop_plain v fuel prog tab (head?_encode_append_ne hv i rest) (hne i)]
    simp [decodeOne_encode_append, StreamItem.instr, rows, List.drop_left' (encode_length i)]
  | declared decl k c i =>
    obtain ⟨hhead, hdecode, -⟩ := hread
    rw [stream_nil] at hdecode
    have hbody : (decl ++ (encode i ++ rest)).drop decl.length = encode i ++ rest := List.drop_left
    have hfresh : ¬ tab.any (fun row => row.index == k) = true := by
      rw [any_index_eq_true_iff]
      exact ((nodup_index_append_singleton tab ⟨k, prog.length, c⟩).1 hnodup).1
    rw [StreamItem.bytes, List.append_assoc,
      loadSubLoop_declared v fuel prog tab (by simp [hhead]) hdecode
        (by rw [hbody]; exact head?_encode_append_ne hv i rest) (by rw [hbody]; exact hne i), hbody]
    simp only [decodeOne_encode_append, if_neg hfresh, List.drop_left' (encode_length i)]
    rfl

theorem loadSubLoop_stream {v : SubVariant} (hv : Unassigned v.opcode) (items : List StreamItem) (fuel : Nat)
    {rest : List Byte} {prog : List Instr} {tab : List SubEntry} (hread : Reads v items rest)
    (hnodup : ((tab ++ rows prog.length items).map (·.index)).Nodup) :
    loadSubLoop v (items.length + fuel) (stream items rest) prog tab
      = loadSubLoop v fuel rest (prog ++ items.map StreamItem.instr) (tab ++ rows prog.length items) := by
  induction items generalizing prog tab with
  | nil => simp [rows]
  | cons item items ih =>
    obtain ⟨hitem, hitems⟩ := (reads_cons v item items rest).1 hread
    rw [append_rows_cons] at hnodup ⊢
    have hnodup' : ((tab ++ rows prog.length [item]).map (·.index)).Nodup :=
      List.Nodup.of_append_left (by rwa [List.map_append] at hnodup)
    rw [List.length_cons, Nat.succ_add, stream_cons, loadSubLoop_item hv _ hitem hnodup', ih hitems hnodup,
      List.append_assoc prog, List.singleton_append, List.map_cons]

theorem loadImage_variant_eq (v : SubVariant) (image : List Byte) :
    loadImage (some v) image = loadSubLoop v (image.length + 1) image [] [] := rfl

/-- After anything the variant accepts, a load comes to the bytes that follow it. -/
theorem loadImage_stream {v : SubVariant} (hv : Unassigned v.opcode) {items : List StreamItem} {rest : List Byte}
    (h : Accepts v items rest) :
    ∃ fuel, loadImage (some v) (stream items rest)
      = loadSubLoop v (fuel + 1) rest (items.map StreamItem.instr) (rows 0 items) := by
  obtain ⟨hread, hnodup⟩ := h
  have hle : items.length ≤ (stream items rest).length :=
    (length_le_length_flatMap StreamItem.bytes_ne_nil items).trans (by simp [stream])
  refine ⟨(stream items rest).length - items.length, ?_⟩
  have hfuel : (stream items rest).length + 1
      = items.length + ((stream items rest).length - items.length + 1) := by omega
  rw [loadImage_variant_eq, hfuel]
  exact loadSubLoop_stream hv items _ hread hnodup

/-! ## The load loop of the variant: where it fails -/

/-- A declaration whose body decodes is an item of the stream: the bytes it consumes are followed by the body's. -/
theorem reads_of_declares {v : SubVariant} {b : List Byte} {k c n : Nat} {i : Instr} {m : Nat}
    (decl : Declares v b k c n) (isBody : (b.drop n).head? ≠ some v.opcode) (hdec : decodeOne (b.drop n) = .ok i m) :
    b = (StreamItem.declared (b.take n) k c i).bytes ++ (b.drop n).drop m
      ∧ Reads v [.declared (b.take n) k c i] ((b.drop n).drop m) := by
  obtain ⟨hhead, hread⟩ := decl
  have hbytes : encode i ++ (b.drop n).drop m = b.drop n := (decodeOne_ok hdec).2
  have hmore : b.drop n ≠ [] := by
    rw [← hbytes]
    exact List.append_ne_nil_of_left_ne_nil (encode_ne_nil i) _
  have hlen : (b.take n).length = n :=
    List.length_take_of_le (Nat.le_of_not_ge fun hle => hmore (List.drop_eq_nil_of_le hle))
  have hpos : n ≠ 0 := by
    rintro rfl
    exact isBody hhead
  refine ⟨?_, ?_, ?_, trivial⟩
  · rw [StreamItem.bytes, List.append_assoc, hbytes, List.take_append_drop]
  · rw [List.head?_take, if_neg hpos, hhead]
  · rw [stream_nil, hbytes, List.take_append_drop, hlen, hread]

/-- A pass of a load that fails either fails itself, or takes an item and leaves the failure to the passes after it. -/
theorem loadSubLoop_error_pass {v : SubVariant} {fuel : Nat} {b : List Byte} {prog : List Instr}
    {tab : List SubEntry} {e : LoadError} (htab : (tab.map (·.index)).Nodup)
    (h : loadSubLoop v (fuel + 1) b prog tab = .error e) :
    FailsAt v tab b e ∨ ∃ (item : StreamItem) (rest : List Byte), b = item.bytes ++ rest ∧ Reads v [item] rest
      ∧ ((tab ++ rows prog.length [item]).map (·.index)).Nodup
      ∧ loadSubLoop v fuel rest (prog ++ [item.instr]) (tab ++ rows prog.length [item]) = .error e := by
  by_cases hdecl : b.head? = some v.opcode
  · cases hread : v.decode b with
    | none =>
      rw [loadSubLoop_invalidOperand v fuel prog tab hdecl hread] at h
      cases h
      exact .inl (.operand hdecl hread)
    | some info =>
      obtain ⟨k, c, n⟩ := info
      by_cases hempty : b.drop n = [] ∨ (b.drop n).head? = some v.opcode
      · rw [loadSubLoop_emptySubroutine fuel prog tab ⟨hdecl, hread⟩ hempty] at h
        cases h
        exact .inl (.empty ⟨hdecl, hread⟩ hempty)
      obtain ⟨hmore, hbody⟩ := not_or.1 hempty
      rw [loadSubLoop_declared v fuel prog tab hdecl hread hbody hmore] at h
      cases hdec : decodeOne (b.drop n) with
      | noOpcode => exact absurd (decodeOne_noOpcode hdec) hmore
      | err e' =>
        rw [hdec] at h
        cases h
        exact .inl (.body ⟨hdecl, hread⟩ hbody hdec)
      | ok i m =>
        simp only [hdec, any_index_eq_true_iff] at h
        split at h
        · next hagain =>
          cases h
          exact .inl (.duplicate ⟨hdecl, hread⟩ hdec hagain)
        · next hfresh =>
          obtain ⟨hb, hitem⟩ := reads_of_declares ⟨hdecl, hread⟩ hbody hdec
          exact .inr ⟨.declared (b.take n) k c i, (b.drop n).drop m, hb, hitem,
            (nodup_index_append_singleton tab ⟨k, prog.length, c⟩).2 ⟨hfresh, htab⟩, h⟩
  · by_cases hnil : b = []
    · subst hnil
      cases h
    rw [loadSubLoop_plain v fuel prog tab hdecl hnil] at h
    cases hdec : decodeOne b with
    | noOpcode => exact absurd (decodeOne_noOpcode hdec) hnil
    | err e' =>
      rw [hdec] at h
      cases h
      exact .inl (.plain hdecl hdec)
    | ok i n =>
      rw [hdec] at h
      have hrows : tab ++ rows prog.length [.plain i] = tab := List.append_nil tab
      exact .inr ⟨.plain i, b.drop n, (decodeOne_ok hdec).2.symm, trivial, by rwa [hrows], by rwa [hrows]⟩

theorem loadSubLoop_error {v : SubVariant} {fuel : Nat} {b : List Byte} {prog : List Instr} {tab : List SubEntry}
    {e : LoadError} (htab : (tab.map (·.index)).Nodup) (h : loadSubLoop v fuel b prog tab = .error e) :
    ∃ (items : List StreamItem) (rest : List Byte), b = stream items rest ∧ Reads v items rest
      ∧ ((tab ++ rows prog.length items).map (·.index)).Nodup ∧ FailsAt v (tab ++ rows prog.length items) rest e := by
  induction fuel generalizing b prog tab with
  | zero => cases h
  | succ fuel ih =>
    obtain hfail | ⟨item, rest, rfl, hread, hnodup, hloop⟩ := loadSubLoop_error_pass htab h
    · exact ⟨[], b, rfl, trivial, by simpa [rows] using htab, by simpa [rows] using hfail⟩
    · obtain ⟨items, rest', rfl, hreads, hnodup', hfail⟩ := ih hnodup hloop
      rw [← append_rows_cons] at hnodup' hfail
      exact ⟨item :: items, rest', (stream_cons item items rest').symm,
        (reads_cons v item items rest').2 ⟨hread, hreads⟩, hnodup', hfail⟩

theorem loadImage_variant_error {v : SubVariant} {image : List Byte} {e : LoadError}
    (h : loadImage (some v) image = .error e) :
    ∃ (items : List StreamItem) (rest : List Byte), image = stream items rest ∧ Accepts v items rest
      ∧ FailsAt v (rows 0 items) rest e := by
  rw [loadImage_variant_eq] at h
  obtain ⟨items, rest, himage, hread, hnodup, hfail⟩ := loadSubLoop_error (tab := []) List.nodup_nil h
  exact ⟨items, rest, himage, ⟨hread, hnodup⟩, hfail⟩

/-- With the variant on, its declaration's opcode is none of the unknown ones (R57). -/
theorem not_failsAt_unknownOpcode_variant {v : SubVariant} {tab : List SubEntry} {b : List Byte} :
    ¬ FailsAt v tab b (.unknownOpcode v.opcode) := by
  intro h
  cases h with
  | plain noDecl bad => exact noDecl (decodeOne_unknownOpcode bad).2
  | body decl isBody bad => exact isBody (decodeOne_unknownOpcode bad).2

theorem declares_of_failsAt_emptySubroutine {v : SubVariant} {tab : List SubEntry} {b : List Byte}
    (h : FailsAt v tab b .emptySubroutine) :
    ∃ k c n, Declares v b k c n ∧ (b.drop n = [] ∨ (b.drop n).head? = some v.opcode) := by
  cases h with
  | plain noDecl bad => exact absurd bad (decodeOne_ne_emptySubroutine b)
  | empty decl bad => exact ⟨_, _, _, decl, bad⟩
  | body decl isBody bad => exact absurd bad (decodeOne_ne_emptySubroutine _)

end Sys2Proof

namespace Sys2Proof.Proofs

open Sys2Proof.Claims

/-- Settles O3: an unassigned byte takes none of DecodeOne's branches, and the variant's loop never gives its own
opcode to DecodeOne. -/
theorem unassignedOpcodesFailTheLoad : Obligations.UnassignedOpcodesFailTheLoad := by
  refine ⟨fun op hop rest => ⟨decodeOne_unassigned hop rest, load_error_of_decodeOne_err (decodeOne_unassigned hop rest)⟩,
    fun op hop rest op' h => ?_, unassigned_count, fun v image h => ?_⟩
  · obtain ⟨hop', hhead⟩ := decodeOne_unknownOpcode h
    cases hhead
    exact hop hop'
  · obtain ⟨items, rest, -, -, hfail⟩ := loadImage_variant_error h
    exact not_failsAt_unknownOpcode_variant hfail

/-- Settles O4: DecodeOne on an encoding cut short, and the cases of DecodeOne's errors where the load failed. -/
theorem truncatedOperandsFailTheLoad : Obligations.TruncatedOperandsFailTheLoad := by
  refine ⟨fun i k h0 hk => ⟨decodeOne_encode_take i h0 hk, load_error_of_decodeOne_err (decodeOne_encode_take i h0 hk)⟩,
    fun image i h => ?_⟩
  rw [load_eq_loadLoop] at h
  obtain ⟨before, rest, rfl, herr⟩ := loadLoop_error h
  obtain ⟨j, k, h0, hk, rfl, he⟩ | ⟨op, -, -, -, he⟩ := decodeOne_err_cases herr
  · exact ⟨before, j, k, h0, hk, he.symm, rfl⟩
  · exact absurd he (i.truncationError_ne_unknownOpcode op)

/-- Settles O8: the one failure of R62 that is EmptySubroutine, after the items the load took. -/
theorem emptySubroutineFailsTheLoad : Obligations.EmptySubroutineFailsTheLoad := by
  intro v hv image
  constructor
  · intro h
    obtain ⟨items, bad, himage, haccepts, hfail⟩ := loadImage_variant_error h
    obtain ⟨k, c, n, hdecl, hempty⟩ := declares_of_failsAt_emptySubroutine hfail
    exact ⟨items, bad, k, c, n, himage, haccepts, hdecl, hempty⟩
  · rintro ⟨items, bad, k, c, n, rfl, haccepts, hdecl, hempty⟩
    obtain ⟨fuel, hload⟩ := loadImage_stream hv haccepts
    rw [hload, loadSubLoop_emptySubroutine fuel _ _ hdecl hempty]

end Sys2Proof.Proofs

/-! # The Mov family (40_mov.md) -/

namespace Sys2Proof.Claims

open Sys2Proof.Machine

/-- A memory write is the one-cell change that the statements speak of (R13). -/
theorem writesCell_memWrite (s : State) (dest : Addr) (v : Word) : WritesCell s (s.memWrite dest v) dest v :=
  ⟨s.memWrite_read_self dest v, fun _ ha => s.memWrite_read_other v ha, rfl⟩

end Sys2Proof.Claims

namespace Sys2Proof

/-- F7 with the bytes written out (R53, R67): they are the encoding of the MOV whose fields they assemble to. -/
theorem decodeOne_mov_bytes (b1 b2 b3 b4 dh dl : Byte) (rest : List Byte) :
    decodeOne (0x10#8 :: b1 :: b2 :: b3 :: b4 :: dh :: dl :: rest)
      = .ok (.mov (be32 b1 b2 b3 b4) (be16 dh dl)) 7 := by
  have hbytes : encode (.mov (be32 b1 b2 b3 b4) (be16 dh dl)) = [0x10#8, b1, b2, b3, b4, dh, dl] := by
    simp [encode]
  have hdecode := decodeOne_encode_append (.mov (be32 b1 b2 b3 b4) (be16 dh dl)) rest
  rwa [hbytes] at hdecode

end Sys2Proof

namespace Sys2Proof.Proofs

open Sys2Proof.Machine Sys2Proof.Claims

/-- Settles O27: the bytes are MOV's encoding, and MOV's next state is one memory write of the literal. -/
theorem movStoresItsLiteral : Obligations.MovStoresItsLiteral :=
  ⟨decodeOne_mov_bytes, fun lit dest s => ⟨s.memWrite dest lit, rfl, writesCell_memWrite s dest lit⟩⟩

end Sys2Proof.Proofs

/-! # The Alu family (41_alu.md): its encoding, its one-cell write and what else it can change -/

namespace Sys2Proof.Claims

open Sys2Proof.Machine

/-- R52: the five bytes are the encoding of the F5 instruction whose fields they assemble to. -/
theorem encodedF5_ofAlu {op : Byte} {a : AluOp} (h : aluOpOf op = some a) : EncodedF5 op (Instr.ofAlu a) := by
  intro sh sl dh dl rest
  have hbytes : encode (Instr.ofAlu a (be16 sh sl) (be16 dh dl)) = [op, sh, sl, dh, dl] := by
    simp [encode_ofAlu h, encodeF5]
  have hsize : (Instr.ofAlu a (be16 sh sl) (be16 dh dl)).size = 5 := by
    rw [← encode_length, hbytes]; rfl
  have hdecode := decodeOne_encode_append (Instr.ofAlu a (be16 sh sl) (be16 dh dl)) rest
  rwa [hbytes, hsize] at hdecode

/-- The shared ALU shape is a one-cell change, by what `f` makes of the two values read before it (R68). -/
theorem writesCell_aluUpdate (s : State) (src : Src) (dest : Addr) (f : Word → Word → Word) :
    WritesCell s (s.aluUpdate src dest f) dest (f (s.memRead dest) (s.readSrc src)) := by
  rw [State.aluUpdate_eq]
  exact writesCell_memWrite s dest _

theorem IsAlu.ne_print {i : Instr} (h : IsAlu i) (a : Addr) : i ≠ .print a := by
  rintro rfl
  obtain ⟨op, src, dest, hd⟩ := h
  cases hd

theorem IsAlu.not_isJump {i : Instr} (h : IsAlu i) (o : Offset) : ¬ IsJump i o := by
  rintro ⟨c, hc⟩
  obtain ⟨op, src, dest, hd⟩ := h
  cases hd.symm.trans hc

/-- R69: "Every operation except CMP writes exactly one cell, dest." -/
theorem IsAlu.exists_writes {i : Instr} (h : IsAlu i) (hcmp : ∀ src dest, i ≠ .cmp src dest) :
    ∃ dest, i.writes = some dest := by
  obtain ⟨op, src, dest, hd⟩ := h
  cases i with
  | cmp s d => exact absurd rfl (hcmp s d)
  | assign _ d | add _ d | sub _ d | and _ d | or _ d | xor _ d | shl _ d | shr _ d | sar _ d | mul _ d | div _ d
  | mfx d => exact ⟨d, rfl⟩
  | print | mov | jmp | jn | jle | jz => cases hd

end Sys2Proof.Claims

namespace Sys2Proof.Machine

open Sys2Proof.Claims

/-- Memory changes by one write, to the cell that `Instr.writes` names. -/
theorem Effect.mem_cases {i : Instr} {s t : State} (h : Effect i s t) :
    t.mem = s.mem ∨ ∃ d v, i.writes = some d ∧ t.mem = Memory.write s.mem (uint d) v := by
  cases h with
  | cell d v hw => exact .inr ⟨d, v, hw, rfl⟩
  | cellX src d v w hi => exact .inr ⟨d, v, by obtain rfl | rfl := hi <;> rfl, rfl⟩
  | _ => exact .inl rfl

theorem Effect.mem_eq_of_writes_none {i : Instr} {s t : State} (h : Effect i s t) (hw : i.writes = none) :
    t.mem = s.mem := by
  obtain hmem | ⟨d, v, hd, -⟩ := h.mem_cases
  · exact hmem
  · cases hw.symm.trans hd

theorem Effect.read_other {i : Instr} {s t : State} (h : Effect i s t) {d : Addr} (hw : i.writes = some d) {a : Nat}
    (ha : a ≠ uint d) : Memory.read t.mem a = Memory.read s.mem a := by
  obtain hmem | ⟨d', v, hd, hmem⟩ := h.mem_cases
  · rw [hmem]
  · obtain rfl : d = d' := Option.some.inj (hw.symm.trans hd)
    rw [hmem, Memory.read_write_other s.mem v ha]

theorem Effect.x_cases {i : Instr} {s t : State} (h : Effect i s t) :
    t.x = s.x ∨ ∃ src d, i = .mul src d ∨ i = .div src d := by
  cases h with
  | cellX src d v w hi => exact .inr ⟨src, d, hi⟩
  | _ => exact .inl rfl

/-- The run state changes only where an instruction raises an error: DIV, a jump or PRINT (R112). -/
theorem Effect.run_cases {i : Instr} {s t : State} (h : Effect i s t) :
    t.run = s.run ∨ (∃ src d, i = .div src d) ∨ (∃ o, IsJump i o) ∨ ∃ a, i = .print a := by
  cases h with
  | badJump c o e hi hc => exact .inr (.inr (.inl ⟨o, hi ▸ isJump_ofCond c o⟩))
  | divZero src d hi hb => exact .inr (.inl ⟨src, d, hi⟩)
  | divOverflow src d hi ha hb => exact .inr (.inl ⟨src, d, hi⟩)
  | noString a hi hb => exact .inr (.inr (.inr ⟨a, hi⟩))
  | _ => exact .inl rfl

theorem Effect.pending_cases {i : Instr} {s t : State} (h : Effect i s t) :
    t.pending = s.pending ∨ ∃ a, i = .print a := by
  cases h with
  | request a buf hi hb => exact .inr ⟨a, hi⟩
  | _ => exact .inl rfl

theorem Effect.hostCalls_eq {i : Instr} {s t : State} (h : Effect i s t) : t.hostCalls = s.hostCalls := by
  cases h <;> rfl

theorem Effect.subtab_eq {i : Instr} {s t : State} (h : Effect i s t) : t.subtab = s.subtab := by
  cases h <;> rfl

theorem Effect.frames_eq {i : Instr} {s t : State} (h : Effect i s t) : t.frames = s.frames := by
  cases h <;> rfl

theorem Effect.pc_eq_of_isAlu {i : Instr} {s t : State} (h : Effect i s t) (hi : IsAlu i) : t.pc = s.pc :=
  h.pc_cases.resolve_right fun ⟨o, hj, _⟩ => hi.not_isJump o hj

theorem Effect.pending_eq_of_isAlu {i : Instr} {s t : State} (h : Effect i s t) (hi : IsAlu i) :
    t.pending = s.pending :=
  h.pending_cases.resolve_right fun ⟨a, hp⟩ => hi.ne_print a hp

theorem Effect.run_cases_of_isAlu {i : Instr} {s t : State} (h : Effect i s t) (hi : IsAlu i) :
    t.run = s.run ∨ ∃ src d, i = .div src d := by
  obtain hrun | hdiv | ⟨o, hj⟩ | ⟨a, hp⟩ := h.run_cases
  · exact .inl hrun
  · exact .inr hdiv
  · exact absurd hj (hi.not_isJump o)
  · exact absurd hp (hi.ne_print a)

/-- ADD is one memory write of the wrapped sum, the same for both readings of the cells (R70, R75). -/
theorem exec_add (src dest : Addr) (s : State) :
    exec (.add src dest) s = .next (s.memWrite dest (s.memRead dest + s.memRead src)) := by
  rw [← trunc32_add]
  rfl

end Sys2Proof.Machine

namespace Sys2Proof.Proofs

open Sys2Proof.Machine Sys2Proof.Claims

/-- Settles O25: the cases of an instruction's effect, one component of the state at a time, less those of the jumps
and PRINT. -/
theorem aluSideEffects : Obligations.AluSideEffects := by
  intro i s hi
  obtain ⟨t, ht, he⟩ := exec_effect i s
  refine ⟨t, ht, fun hst => ?_, he.x_cases.resolve_left, fun src dest hcmp => ?_, fun hcmp => ?_,
    he.pc_eq_of_isAlu hi, (he.run_cases_of_isAlu hi).resolve_left, he.pending_eq_of_isAlu hi, he.prog_eq,
    he.hostCalls_eq, he.subtab_eq, he.frames_eq⟩
  · obtain ⟨src, dest, hcmp, -⟩ := he.st_cases.resolve_left hst
    exact ⟨src, dest, hcmp⟩
  · have hw : i.writes = none := hcmp ▸ rfl
    exact ⟨hw, he.mem_eq_of_writes_none hw⟩
  · obtain ⟨dest, hw⟩ := hi.exists_writes hcmp
    exact ⟨dest, hw, fun a ha => he.read_other hw ha⟩

/-- Settles O28: the encoding of R52, and the shared ALU shape with the source value. -/
theorem assignCopiesTheSourceCell : Obligations.AssignCopiesTheSourceCell :=
  ⟨encodedF5_ofAlu (a := .assign) rfl, fun src dest s => ⟨_, rfl, writesCell_aluUpdate s (.cell src) dest fun _ b => b⟩⟩

/-- Settles O29: the encoding of R52, and the shared ALU shape with each of the three operations. -/
theorem bitwiseOperationsCombineBothCells : Obligations.BitwiseOperationsCombineBothCells :=
  ⟨⟨encodedF5_ofAlu (a := .and) rfl, fun src dest s => ⟨_, rfl, writesCell_aluUpdate s (.cell src) dest (· &&& ·)⟩⟩,
    ⟨encodedF5_ofAlu (a := .or) rfl, fun src dest s => ⟨_, rfl, writesCell_aluUpdate s (.cell src) dest (· ||| ·)⟩⟩,
    ⟨encodedF5_ofAlu (a := .xor) rfl, fun src dest s => ⟨_, rfl, writesCell_aluUpdate s (.cell src) dest (· ^^^ ·)⟩⟩⟩

/-- Settles O30: ADD writes the bit-vector sum, whose two readings are the wrapped sums of the readings. -/
theorem addWraps : Obligations.AddWraps := by
  refine ⟨encodedF5_ofAlu (a := .add) rfl, fun src dest s =>
    ⟨_, exec_add src dest s, writesCell_memWrite s dest _, ?_, ?_⟩⟩
  · rw [State.memWrite_read_self]; exact BitVec.toInt_add _ _
  · rw [State.memWrite_read_self]; exact BitVec.toNat_add _ _

end Sys2Proof.Proofs

/-! # Fault entry (60_exceptions.md): the states that an error leaves, and the end of the run -/

namespace Sys2Proof.Machine

/-- An instruction that changes the run state does so by raising one error, and raising it is all it does (R113). -/
theorem Effect.run_eq_or_raise {i : Instr} {s t : State} (h : Effect i s t) : t.run = s.run ∨ ∃ e, t = s.raise e := by
  cases h with
  | badJump | divZero | divOverflow | noString => exact .inr ⟨_, rfl⟩
  | cell | cellX | flags | goto | skip | request => exact .inl rfl

/-- A fault that appears while an instruction executes was raised by that instruction. -/
theorem Effect.eq_raise_of_faulted {i : Instr} {s t : State} {e : RunError} {q : Nat} (h : Effect i s t)
    (hs : s.run = .running) (ht : t.run = .faulted e q) : t = s.raise e := by
  obtain hrun | ⟨e', rfl⟩ := h.run_eq_or_raise
  · cases ht.symm.trans (hrun.trans hs)
  · cases ht; rfl

/-- Fault entry with the instruction's index p = pc − 1 named (R100). -/
theorem State.raise_eq {s : State} {p : Nat} (e : RunError) (hp : s.pc = p + 1) :
    s.raise e = { s with run := .faulted e p } := by
  have hindex : s.ownIndex = p := by rw [State.ownIndex, hp, Nat.add_sub_cancel]
  rw [State.raise, hindex]; rfl

theorem State.status_of_faulted {s : State} {e : RunError} {p : Nat} (h : s.run = .faulted e p) :
    s.status = ⟨.faulted e p, some e.code⟩ := by
  rw [State.status, h]

/-- Faulted is terminal (R107). -/
theorem step_of_faulted {s : State} {e : RunError} {p : Nat} (h : s.run = .faulted e p) :
    step s = .fault (.runError e p) := by
  rw [step, h]

end Sys2Proof.Machine

namespace Sys2Proof.Proofs

open Sys2Proof.Machine Sys2Proof.Claims

/-- Settles O21: the state is the one that raising e leaves, and a step asked of it answers the fault. -/
theorem faultEntrySavesNothingElse : Obligations.FaultEntrySavesNothingElse := by
  intro i s t p e q hs hp he ht
  have hraise : t = { s with run := .faulted e p } :=
    ((Effect.of_exec he).eq_raise_of_faulted hs ht).trans (State.raise_eq e hp)
  have hrun : t.run = .faulted e p := hraise ▸ rfl
  have hq : q = p := by cases ht.symm.trans hrun; rfl
  refine ⟨hq, hraise, hraise ▸ hp, State.status_of_faulted hrun, fun u hu => ?_⟩
  cases (step_of_faulted hrun).symm.trans hu

end Sys2Proof.Proofs

/-! # What loads (30_encoding.md): the inversion of the two load loops, then the statements about decoding and loading -/

namespace Sys2Proof

open Sys2Proof.Claims

theorem ne_nil_of_decodeOne_err {b : List Byte} {e : LoadError} (hdec : decodeOne b = .err e) : b ≠ [] := by
  rintro rfl
  cases hdec

theorem ne_nil_of_decodeOne_ok {b : List Byte} {i : Instr} {n : Nat} (hdec : decodeOne b = .ok i n) : b ≠ [] := by
  rintro rfl
  cases hdec

/-! ## The load loop (R48) -/

/-- After loaded instructions, a load comes to the bytes that follow them, with passes enough for those. -/
theorem load_encodeProgram_append (before : List Instr) (rest : List Byte) :
    ∃ fuel, rest.length < fuel ∧ load (encodeProgram before ++ rest) = loadLoop fuel rest before := by
  have hle : before.length ≤ (encodeProgram before).length := length_le_length_flatMap encode_ne_nil before
  obtain ⟨fuel, hfuel⟩ := Nat.exists_eq_add_of_le
    (show before.length ≤ (encodeProgram before ++ rest).length + 1 by rw [List.length_append]; omega)
  refine ⟨fuel, by rw [List.length_append] at hfuel; omega, ?_⟩
  rw [load_eq_loadLoop, hfuel, loadLoop_encodeProgram_append, List.nil_append]

/-- The inversion of a load loop that has a pass for every byte. -/
theorem loadLoop_ok {fuel : Nat} {b : List Byte} {prog prog' : List Instr} {tab : List SubEntry}
    (hfuel : b.length < fuel) (h : loadLoop fuel b prog = .ok prog' tab) :
    ∃ is, prog' = prog ++ is ∧ encodeProgram is = b ∧ tab = [] := by
  induction fuel generalizing b prog with
  | zero => omega
  | succ fuel ih =>
    rw [loadLoop] at h
    cases hdec : decodeOne b with
    | noOpcode =>
      rw [hdec] at h
      cases h
      exact ⟨[], (List.append_nil _).symm, (decodeOne_noOpcode hdec).symm, rfl⟩
    | err e => rw [hdec] at h; cases h
    | ok i n =>
      rw [hdec] at h
      obtain ⟨hn, hbytes⟩ := decodeOne_ok hdec
      have hsize : 3 ≤ n := by rw [hn, encode_length]; exact i.three_le_size
      have hpos : 0 < b.length := List.length_pos_iff.2 (ne_nil_of_decodeOne_ok hdec)
      obtain ⟨is, rfl, his, htab⟩ := ih (by rw [List.length_drop]; omega) h
      exact ⟨i :: is, List.append_assoc prog [i] is, by rw [encodeProgram_cons, his, hbytes], htab⟩

theorem load_encodeProgram (prog : List Instr) : load (encodeProgram prog) = .ok prog [] := by
  obtain ⟨fuel, hfuel, hload⟩ := load_encodeProgram_append prog []
  obtain ⟨fuel, rfl⟩ := Nat.exists_eq_add_of_lt hfuel
  rw [List.append_nil] at hload
  rw [hload]
  rfl

theorem load_ok {image : List Byte} {prog : List Instr} {tab : List SubEntry} (h : load image = .ok prog tab) :
    encodeProgram prog = image ∧ tab = [] := by
  obtain ⟨is, rfl, his, htab⟩ := loadLoop_ok (Nat.lt_succ_self _) h
  exact ⟨his, htab⟩

/-- The instruction that an image's bytes decode to stands in the program where those bytes stand in the image. -/
theorem getElem?_of_load {before : List Instr} {b : List Byte} {i : Instr} {n : Nat} {prog : List Instr}
    {tab : List SubEntry} (hdec : decodeOne b = .ok i n) (h : load (encodeProgram before ++ b) = .ok prog tab) :
    prog[before.length]? = some i := by
  have himage : encodeProgram before ++ b = encodeProgram (before ++ [i]) ++ b.drop n := by
    simp [encodeProgram_append, (decodeOne_ok hdec).2]
  obtain ⟨fuel, hfuel, hload⟩ := load_encodeProgram_append (before ++ [i]) (b.drop n)
  rw [himage, hload] at h
  obtain ⟨is, rfl, -, -⟩ := loadLoop_ok hfuel h
  simp

/-! ## The load loop of the variant (R62): what it loads -/

/-- A pass of a load that succeeds ends at the end of the stream, or takes an item. -/
theorem loadSubLoop_ok_pass {v : SubVariant} {fuel : Nat} {b : List Byte} {prog prog' : List Instr}
    {tab tab' : List SubEntry} (htab : (tab.map (·.index)).Nodup)
    (h : loadSubLoop v (fuel + 1) b prog tab = .ok prog' tab') :
    (b = [] ∧ prog' = prog ∧ tab' = tab)
      ∨ ∃ (item : StreamItem) (rest : List Byte), b = item.bytes ++ rest ∧ Reads v [item] rest
        ∧ ((tab ++ rows prog.length [item]).map (·.index)).Nodup
        ∧ loadSubLoop v fuel rest (prog ++ [item.instr]) (tab ++ rows prog.length [item]) = .ok prog' tab' := by
  by_cases hnil : b = []
  · subst hnil
    cases h
    exact .inl ⟨rfl, rfl, rfl⟩
  refine .inr ?_
  by_cases hdecl : b.head? = some v.opcode
  · cases hread : v.decode b with
    | none => rw [loadSubLoop_invalidOperand v fuel prog tab hdecl hread] at h; cases h
    | some info =>
      obtain ⟨k, c, n⟩ := info
      by_cases hempty : b.drop n = [] ∨ (b.drop n).head? = some v.opcode
      · rw [loadSubLoop_emptySubroutine fuel prog tab ⟨hdecl, hread⟩ hempty] at h; cases h
      obtain ⟨hmore, hbody⟩ := not_or.1 hempty
      rw [loadSubLoop_declared v fuel prog tab hdecl hread hbody hmore] at h
      cases hdec : decodeOne (b.drop n) with
      | noOpcode => exact absurd (decodeOne_noOpcode hdec) hmore
      | err e => rw [hdec] at h; cases h
      | ok i m =>
        simp only [hdec, any_index_eq_true_iff] at h
        split at h
        · cases h
        · next hfresh =>
          obtain ⟨hb, hitem⟩ := reads_of_declares ⟨hdecl, hread⟩ hbody hdec
          exact ⟨.declared (b.take n) k c i, (b.drop n).drop m, hb, hitem,
            (nodup_index_append_singleton tab ⟨k, prog.length, c⟩).2 ⟨hfresh, htab⟩, h⟩
  · rw [loadSubLoop_plain v fuel prog tab hdecl hnil] at h
    cases hdec : decodeOne b with
    | noOpcode => exact absurd (decodeOne_noOpcode hdec) hnil
    | err e => rw [hdec] at h; cases h
    | ok i n =>
      rw [hdec] at h
      have hrows : tab ++ rows prog.length [.plain i] = tab := List.append_nil tab
      exact ⟨.plain i, b.drop n, (decodeOne_ok hdec).2.symm, trivial, by rwa [hrows], by rwa [hrows]⟩

/-- The inversion of a variant's load loop that has a pass for every byte. -/
theorem loadSubLoop_ok {v : SubVariant} {fuel : Nat} {b : List Byte} {prog prog' : List Instr}
    {tab tab' : List SubEntry} (hfuel : b.length < fuel) (htab : (tab.map (·.index)).Nodup)
    (h : loadSubLoop v fuel b prog tab = .ok prog' tab') :
    ∃ items, b = stream items [] ∧ Reads v items [] ∧ ((tab ++ rows prog.length items).map (·.index)).Nodup
      ∧ prog' = prog ++ items.map StreamItem.instr ∧ tab' = tab ++ rows prog.length items := by
  induction fuel generalizing b prog tab with
  | zero => omega
  | succ fuel ih =>
    obtain ⟨rfl, rfl, rfl⟩ | ⟨item, rest, rfl, hread, hnodup, hloop⟩ := loadSubLoop_ok_pass htab h
    · exact ⟨[], rfl, trivial, by simpa [rows] using htab, by simp, by simp [rows]⟩
    · have hpos := List.length_pos_iff.2 (StreamItem.bytes_ne_nil item)
      rw [List.length_append] at hfuel
      obtain ⟨items, rfl, hreads, hnodup', rfl, rfl⟩ := ih (by omega) hnodup hloop
      rw [← append_rows_cons] at hnodup' ⊢
      exact ⟨item :: items, (stream_cons item items []).symm, (reads_cons v item items []).2 ⟨hread, hreads⟩,
        hnodup', by simp, rfl⟩

theorem loadImage_variant_ok {v : SubVariant} {image : List Byte} {prog : List Instr} {tab : List SubEntry}
    (h : loadImage (some v) image = .ok prog tab) :
    ∃ items, image = stream items [] ∧ Accepts v items [] ∧ prog = items.map StreamItem.instr
      ∧ tab = rows 0 items := by
  rw [loadImage_variant_eq] at h
  obtain ⟨items, himage, hread, hnodup, hprog, htab⟩ := loadSubLoop_ok (tab := []) (Nat.lt_succ_self _) List.nodup_nil h
  exact ⟨items, himage, ⟨hread, hnodup⟩, hprog, htab⟩

theorem loadImage_of_accepts {v : SubVariant} (hv : Unassigned v.opcode) {items : List StreamItem}
    (h : Accepts v items []) :
    loadImage (some v) (stream items []) = .ok (items.map StreamItem.instr) (rows 0 items) := by
  obtain ⟨fuel, hload⟩ := loadImage_stream hv h
  rw [hload]
  rfl

/-- Every row names an instruction of the items, the first of which stands at `line`. -/
theorem entryLine_lt_of_mem_rows {items : List StreamItem} {line : Nat} {row : SubEntry} (h : row ∈ rows line items) :
    row.entryLine < line + items.length := by
  induction items generalizing line with
  | nil => cases h
  | cons item items ih =>
    rw [List.length_cons]
    cases item with
    | plain i =>
      have := ih h
      omega
    | declared decl k c i =>
      obtain rfl | hrow := List.mem_cons.1 h
      · exact Nat.lt_add_of_pos_right (Nat.succ_pos _)
      · have := ih hrow
        omega

/-! ## A stream without declarations -/

theorem stream_map_plain (prog : List Instr) : stream (prog.map .plain) [] = encodeProgram prog := by
  induction prog with
  | nil => rfl
  | cons i is ih => rw [List.map_cons, stream_cons, ih, encodeProgram_cons, StreamItem.bytes]

theorem reads_map_plain (v : SubVariant) (prog : List Instr) (rest : List Byte) :
    Reads v (prog.map .plain) rest := by
  induction prog with
  | nil => trivial
  | cons i is ih => exact ih

theorem rows_map_plain (line : Nat) (prog : List Instr) : rows line (prog.map .plain) = [] := by
  induction prog generalizing line with
  | nil => rfl
  | cons i is ih => exact ih (line + 1)

theorem map_instr_map_plain (prog : List Instr) : (prog.map StreamItem.plain).map StreamItem.instr = prog := by
  rw [List.map_map]
  exact List.map_id prog

theorem accepts_map_plain (v : SubVariant) (prog : List Instr) : Accepts v (prog.map .plain) [] :=
  ⟨reads_map_plain v prog [], by rw [rows_map_plain]; exact List.nodup_nil⟩

theorem loadImage_encodeProgram {v : SubVariant} (hv : Unassigned v.opcode) (prog : List Instr) :
    loadImage (some v) (encodeProgram prog) = .ok prog [] := by
  rw [← stream_map_plain, loadImage_of_accepts hv (accepts_map_plain v prog), map_instr_map_plain, rows_map_plain]

/-! ## The load loop of the variant: a pass at which it fails -/

theorem head?_ne_of_decodeOne_ok {b : List Byte} {i : Instr} {n : Nat} {op : Byte} (h : Unassigned op)
    (hdec : decodeOne b = .ok i n) : b.head? ≠ some op := by
  rw [← (decodeOne_ok hdec).2]
  exact head?_encode_append_ne h i _

theorem loadSubLoop_of_failsAt {v : SubVariant} (hv : Unassigned v.opcode) (fuel : Nat) {b : List Byte}
    (prog : List Instr) {tab : List SubEntry} {e : LoadError} (h : FailsAt v tab b e) :
    loadSubLoop v (fuel + 1) b prog tab = .error e := by
  cases h with
  | plain noDecl bad =>
    rw [loadSubLoop_plain v fuel prog tab noDecl (ne_nil_of_decodeOne_err bad), bad]
  | operand decl bad => exact loadSubLoop_invalidOperand v fuel prog tab decl bad
  | empty decl bad => exact loadSubLoop_emptySubroutine fuel prog tab decl bad
  | body decl isBody bad =>
    rw [loadSubLoop_declared v fuel prog tab decl.1 decl.2 isBody (ne_nil_of_decodeOne_err bad), bad]
  | duplicate decl isBody again =>
    rw [loadSubLoop_declared v fuel prog tab decl.1 decl.2 (head?_ne_of_decodeOne_ok hv isBody)
      (ne_nil_of_decodeOne_ok isBody), isBody]
    exact if_pos ((any_index_eq_true_iff _ _).2 again)

theorem loadImage_of_failsAt {v : SubVariant} (hv : Unassigned v.opcode) {items : List StreamItem} {rest : List Byte}
    {e : LoadError} (haccepts : Accepts v items rest) (hfail : FailsAt v (rows 0 items) rest e) :
    loadImage (some v) (stream items rest) = .error e := by
  obtain ⟨fuel, hload⟩ := loadImage_stream hv haccepts
  rw [hload, loadSubLoop_of_failsAt hv fuel _ hfail]

end Sys2Proof

namespace Sys2Proof.Proofs

open Sys2Proof.Claims

/-- Settles O1: DecodeOne on an encoding, and the one way it answers an instruction. -/
theorem decodeAndEncodeAgree : Obligations.DecodeAndEncodeAgree :=
  ⟨fun i rest => (encode_length i).symm ▸ decodeOne_encode_append i rest, fun _ _ _ h => (decodeOne_ok h).2⟩

/-- Settles O2: by the load loop on a program's encodings, and its inversion. -/
theorem loadAndEncodeProgramAgree : Obligations.LoadAndEncodeProgramAgree :=
  ⟨load_encodeProgram, fun _ _ _ => load_ok⟩

/-- Settles O5: the load loop's inversion where it failed, and the load of the bytes it failed at. -/
theorem loadReportsTheFirstError : Obligations.LoadReportsTheFirstError := by
  refine fun image e => ⟨loadLoop_error, ?_⟩
  rintro ⟨before, rest, rfl, hdec⟩
  exact load_error_of_decodeOne_err hdec before

/-- Settles O6: NoOpcode is the answer to no bytes alone. -/
theorem noOpcodeOnlyAtTheEnd : Obligations.NoOpcodeOnlyAtTheEnd :=
  ⟨fun _ => ⟨decodeOne_noOpcode, fun h => h ▸ rfl⟩, load_encodeProgram []⟩

/-- Settles O7: each word, evaluated. -/
theorem specWordsDecodeAsWritten : Obligations.SpecWordsDecodeAsWritten := by
  unfold Obligations.SpecWordsDecodeAsWritten
  decide

/-- Settles O9: the inversion of the variant's loop where it loads, its run over the items it accepts, and its one
failure at a second declaration. -/
theorem subroutineVariantIsTransparent : Obligations.SubroutineVariantIsTransparent := by
  refine ⟨fun v hv image prog tab => ⟨loadImage_variant_ok, ?_⟩, fun v items _ _ => ?_,
    fun v hv items decl k c i rest haccepts hdecl hagain => ?_, fun v image prog hv h => ?_,
    fun v image prog tab h => ?_⟩
  · rintro ⟨items, rfl, haccepts, rfl, rfl⟩
    exact loadImage_of_accepts hv haccepts
  · rw [← List.flatMap_map StreamItem.instr encode]
    exact load_encodeProgram _
  · have hbody : decodeOne ((decl ++ encode i ++ rest).drop decl.length) = .ok i i.size := by
      rw [List.append_assoc, List.drop_left]
      exact decodeOne_encode_append i rest
    exact loadImage_of_failsAt hv haccepts (.duplicate hdecl hbody hagain)
  · rw [← (load_ok h).1]
    exact loadImage_encodeProgram hv prog
  · obtain ⟨items, -, ⟨-, hnodup⟩, rfl, rfl⟩ := loadImage_variant_ok h
    refine ⟨fun row hrow => ?_, hnodup⟩
    simpa using entryLine_lt_of_mem_rows hrow

/-- Settles O46: the inversion of the variant's loop where it failed, and its failing pass after the items it took. -/
theorem variantLoadReportsTheFirstError : Obligations.VariantLoadReportsTheFirstError := by
  refine fun v hv image e => ⟨loadImage_variant_error, ?_⟩
  rintro ⟨items, rest, rfl, haccepts, hfail⟩
  exact loadImage_of_failsAt hv haccepts hfail

end Sys2Proof.Proofs

/-! # Reset, the invariant and the loop controller (10_state.md, 44_fetch_execute.md, 70_reset_and_hazards.md) -/

namespace Sys2Proof.Machine

open Sys2Proof.Claims

/-! ## The step in each run state -/

theorem step_of_ready {s : State} (h : s.run = .ready) : step s = .next s.start := by
  rw [step, h]

theorem step_of_halted {s : State} (h : s.run = .halted) : step s = .refused .halted := by
  rw [step, h]

theorem step_at_end {s : State} (hr : s.run = .running) (hp : s.pc = s.progLen) :
    step s = .next (s.finalDrain.withRun .halted) := by
  rw [step, hr]
  exact if_pos hp

theorem State.runCommand_of_ready {s : State} (h : s.run = .ready) : s.runCommand = .accepted s.start := by
  rw [State.runCommand, h]

theorem State.runCommand_of_not_ready {s : State} (h : s.run ≠ .ready) : s.runCommand = .refused := by
  unfold State.runCommand
  cases hr : s.run with
  | ready => exact absurd hr h
  | running | halted | faulted => rfl

@[simp] theorem State.finalDrain_pending (s : State) : s.finalDrain.pending = none := by rw [State.finalDrain_eq]
@[simp] theorem State.finalDrain_subtab (s : State) : s.finalDrain.subtab = s.subtab := by rw [State.finalDrain_eq]

theorem State.finalDrain_hostCalls (s : State) :
    s.finalDrain.hostCalls = if Config.finalDrain = .deliver then s.hostCalls ++ s.pending.toList else s.hostCalls := by
  cases h : Config.finalDrain with
  | deliver => rw [if_pos rfl, State.finalDrain_hostCalls_deliver s h]
  | drop => rw [if_neg nofun, State.finalDrain_hostCalls_drop s h]

/-- The machine after the last cycle of a program (R105, R106). -/
theorem State.finalDrain_withRun_eq (s : State) (r : RunState) :
    s.finalDrain.withRun r = { s with run := r, pending := none, hostCalls := s.finalDrain.hostCalls } := by
  conv_lhs => rw [State.finalDrain_eq]
  rfl

/-! ## Reset -/

theorem boot_of_load {image : List Byte} {prog : List Instr} {tab : List SubEntry} (h : load image = .ok prog tab) :
    boot image = .ready (State.ofProgram prog) := by
  rw [boot, h, (load_ok h).2]
  rfl

theorem boot_ready {image : List Byte} {s : State} (h : boot image = .ready s) : ∃ prog, s = State.ofProgram prog := by
  cases hload : load image with
  | ok prog tab =>
    rw [boot_of_load hload] at h
    cases h
    exact ⟨prog, rfl⟩
  | error e =>
    rw [boot, hload] at h
    cases h

theorem State.inv_ofProgram (prog : List Instr) : (State.ofProgram prog).Inv :=
  { memory := Memory.wf_nil, status := .inl rfl, counter := Nat.zero_le _, table := rfl, frames := rfl
    slot := fun _ => rfl, ready := fun _ => rfl, halted := nofun, faulted := nofun }

/-! ## Each way a step keeps the invariant -/

theorem setFlags_status {st : Byte} {z n : Bool} (hst : st = 0x00#8 ∨ st = 0x01#8 ∨ st = 0x02#8)
    (hzn : ¬ (z = true ∧ n = true)) :
    setFlags st z n = 0x00#8 ∨ setFlags st z n = 0x01#8 ∨ setFlags st z n = 0x02#8 := by
  revert st z n
  decide

/-- CMP makes one of the three values of ST from any of them (R17, R22). -/
theorem cmpFlags_status {st : Byte} (hst : st = 0x00#8 ∨ st = 0x01#8 ∨ st = 0x02#8) (a b : Word) :
    cmpFlags st a b = 0x00#8 ∨ cmpFlags st a b = 0x01#8 ∨ cmpFlags st a b = 0x02#8 := by
  have hzn := cmpFlags_not_both st a b
  rw [cmpFlags_eq, setFlags_z, setFlags_n] at hzn
  rw [cmpFlags_eq]
  exact setFlags_status hst hzn

theorem State.Inv.start {s : State} (h : s.Inv) : s.start.Inv :=
  { memory := h.memory, status := h.status, counter := h.counter, table := h.table, frames := h.frames
    slot := fun hr => absurd rfl hr, ready := nofun, halted := nofun, faulted := nofun }

theorem State.Inv.halt {s : State} (h : s.Inv) (hp : s.pc = s.progLen) : (s.finalDrain.withRun .halted).Inv := by
  rw [State.finalDrain_withRun_eq]
  exact
    { memory := h.memory, status := h.status, counter := h.counter, table := h.table, frames := h.frames
      slot := fun _ => rfl, ready := nofun, halted := fun _ => hp, faulted := nofun }

theorem Effect.progLen_eq {i : Instr} {s t : State} (h : Effect i s t) : t.progLen = s.progLen :=
  congrArg List.length h.prog_eq

theorem Effect.wf_mem {i : Instr} {s t : State} (h : Effect i s t) (hs : Memory.wf s.mem = true) :
    Memory.wf t.mem = true := by
  obtain hmem | ⟨d, v, -, hmem⟩ := h.mem_cases <;> rw [hmem]
  · exact hs
  · exact Memory.wf_write d v hs

theorem Effect.status {i : Instr} {s t : State} (h : Effect i s t)
    (hs : s.st = 0x00#8 ∨ s.st = 0x01#8 ∨ s.st = 0x02#8) : t.st = 0x00#8 ∨ t.st = 0x01#8 ∨ t.st = 0x02#8 := by
  obtain hst | ⟨src, d, -, hst⟩ := h.st_cases <;> rw [hst]
  · exact hs
  · exact cmpFlags_status hs _ _

theorem Effect.pc_le {i : Instr} {s t : State} (h : Effect i s t) (h1 : 1 ≤ s.pc) (hL : s.pc ≤ s.progLen) :
    t.pc ≤ s.progLen := by
  obtain hpc | ⟨o, -, hc, hpc⟩ := h.pc_cases <;> rw [hpc]
  · exact hL
  · exact (jumpTarget_bounds hc h1 hL).2.2

/-- After its instruction a cycle is still Running, or Faulted at the instruction's index with an empty slot (R113). -/
theorem Effect.cycle_run_cases {i : Instr} {s t : State} (h : Effect i s.atExecute t) (hr : s.run = .running) :
    t.run = .running ∨ ∃ e, t.run = .faulted e s.pc ∧ t.pending = none ∧ t.pc = s.pc + 1 := by
  obtain hrun | ⟨e, rfl⟩ := h.run_eq_or_raise
  · exact .inl (hrun.trans hr)
  · exact .inr ⟨e, rfl, rfl, rfl⟩

theorem State.Inv.execute {i : Instr} {s t : State} (h : s.Inv) (hr : s.run = .running) (hlt : s.pc < s.progLen)
    (he : Effect i s.atExecute t) : t.Inv where
  memory := he.wf_mem h.memory
  status := he.status h.status
  counter := he.progLen_eq ▸ he.pc_le (Nat.succ_pos _) hlt
  table := he.subtab_eq.trans h.table
  frames := he.frames_eq.trans h.frames
  slot hne := by
    obtain hrun | ⟨e, -, hpending, -⟩ := he.cycle_run_cases hr
    · exact absurd hrun hne
    · exact hpending
  ready hready := by
    obtain hrun | ⟨e, hrun, -⟩ := he.cycle_run_cases hr <;> cases hready.symm.trans hrun
  halted hhalted := by
    obtain hrun | ⟨e, hrun, -⟩ := he.cycle_run_cases hr <;> cases hhalted.symm.trans hrun
  faulted e p hfault := by
    obtain hrun | ⟨e', hrun, -, hpc⟩ := he.cycle_run_cases hr <;> cases hfault.symm.trans hrun
    exact ⟨hpc, he.progLen_eq ▸ hlt⟩

theorem State.Inv.step {s t : State} (h : s.Inv) (hstep : step s = .next t) : t.Inv := by
  obtain ⟨-, rfl⟩ | ⟨-, hp, rfl⟩ | ⟨hr, hlt, i, -, hexec⟩ := step_cases hstep
  · exact h.start
  · exact h.halt hp
  · exact h.execute hr hlt (Effect.of_exec hexec)

/-! ## The slot (R29, R103) -/

theorem Effect.pending_request_cases {i : Instr} {s t : State} (h : Effect i s t) :
    t.pending = s.pending
      ∨ ∃ a buf, i = .print a ∧ s.cString a = some buf ∧ t.pending = some (.print buf) := by
  cases h with
  | request a buf hi hb => exact .inr ⟨a, buf, hi, hb, rfl⟩
  | _ => exact .inl rfl

/-! ## The model's placing of a table word (log entry 13) -/

theorem placeInstr_getElem? (prog : List Instr) (k : Nat) (i : Instr) : (placeInstr prog k i)[k]? = some i := by
  have hlen : (prog.take k ++ List.replicate (k - prog.length) i).length = k := by
    rw [List.length_append, List.length_take, List.length_replicate]
    omega
  rw [placeInstr, List.getElem?_append_right hlen.le, hlen, Nat.sub_self]
  rfl

theorem State.withFetchWord_eq {nbits w : Nat} {i : Instr} (h : decodeTableWord nbits w = some i) (s : State) :
    s.withFetchWord nbits w = s.placeNext i := by
  rw [State.withFetchWord, h]

theorem step_placeNext (s : State) (i : Instr) : step (s.placeNext i) = exec i (executing (s.placeNext i)) :=
  step_eq_exec rfl (placeInstr_getElem? s.prog s.pc i)

end Sys2Proof.Machine

namespace Sys2Proof.Proofs

open Sys2Proof.Machine Sys2Proof.Claims

/-- Settles O12: the run command, the end of the program and one instruction each keep the invariant. -/
theorem stepKeepsTheInvariant : Obligations.StepKeepsTheInvariant :=
  fun _ _ => State.Inv.step

/-- Settles O10: what boots is the reset state of the program, with the table of the load, which is empty. -/
theorem resetStateIsZeroAndReady : Obligations.ResetStateIsZeroAndReady :=
  ⟨fun _ prog _ h => ⟨State.ofProgram prog, boot_of_load h, Memory.read_nil, rfl, rfl, rfl, rfl, rfl, rfl, rfl, rfl, rfl,
    rfl⟩, boot_of_load (load_encodeProgram [])⟩

/-- Settles O11: every reset state of a program meets the invariant. -/
theorem resetMeetsTheInvariant : Obligations.ResetMeetsTheInvariant := by
  refine ⟨State.inv_ofProgram [], fun image s h => ?_⟩
  obtain ⟨prog, rfl⟩ := boot_ready h
  exact State.inv_ofProgram prog

/-- Settles O13: by the invariant pc is at L or at an instruction, and every instruction answers a next state. -/
theorem runningMachineNeverSticks : Obligations.RunningMachineNeverSticks := by
  rintro s hs (hr | hr)
  · exact ⟨_, step_of_ready hr⟩
  · obtain hlt | hp := hs.counter.lt_or_eq
    · obtain ⟨i, hf⟩ := State.fetch_of_lt hlt
      obtain ⟨t, ht, -⟩ := exec_effect i s.atExecute
      exact ⟨t, (step_eq_exec hr hf).trans ht⟩
    · exact ⟨_, step_at_end hr hp⟩

/-- Settles O14: a Running cycle is exec of the instruction at pc, which the load, or the placing, put there. -/
theorem stepRunsTheDecodedInstruction : Obligations.StepRunsTheDecodedInstruction := by
  refine ⟨fun s i hr hf => step_eq_exec hr hf, fun before b i n prog tab => getElem?_of_load, fun s nbits w i h => ?_⟩
  rw [State.withFetchWord_eq h]
  exact ⟨rfl, step_placeNext s i⟩

/-- Settles O15: the step at L, field by field, for both values of FINAL_DRAIN. -/
theorem cycleAtTheEndHalts : Obligations.CycleAtTheEndHalts := by
  intro s hr hp
  refine ⟨_, step_at_end hr hp, rfl, by simpa [State.progLen] using hp, by simp, State.finalDrain_withRun_eq s .halted,
    s.finalDrain_hostCalls_deliver, s.finalDrain_hostCalls_drop⟩

/-- Settles O16: the three cases of a step, the last with or without a fault; and the answers in each run state. -/
theorem runStateMovesAlongItsArrows : Obligations.RunStateMovesAlongItsArrows := by
  refine ⟨fun s t h => ?_, fun s => State.runCommand_of_ready, fun s => State.runCommand_of_not_ready,
    fun s => step_of_halted, fun s e p => step_of_faulted⟩
  obtain ⟨hr, rfl⟩ | ⟨hr, hp, rfl⟩ | ⟨hr, hlt, i, -, he⟩ := step_cases h
  · exact .inl ⟨hr, rfl⟩
  · exact .inr (.inr (.inl ⟨hr, hp, rfl⟩))
  · obtain hrun | ⟨e, hrun, -⟩ := (Effect.of_exec he).cycle_run_cases hr
    · exact .inr (.inl ⟨hr, hlt.ne, hrun⟩)
    · exact .inr (.inr (.inr ⟨hr, hlt.ne, e, hrun⟩))

/-- Settles O17: the slot is delivered before the instruction, which can put PRINT's request into it and nothing else. -/
theorem requestsAreDeliveredOnceInOrder : Obligations.RequestsAreDeliveredOnceInOrder := by
  intro s t hr h
  obtain ⟨hready, -⟩ | ⟨-, hp, rfl⟩ | ⟨-, hlt, i, hf, hexec⟩ := step_cases h
  · cases hr.symm.trans hready
  · exact ⟨fun hne => absurd hp hne, fun _ => ⟨s.finalDrain_pending, s.finalDrain_hostCalls⟩⟩
  · have he := Effect.of_exec hexec
    refine ⟨fun _ => ⟨he.hostCalls_eq, ?_, fun e p hfault => ?_⟩, fun hp => absurd hp hlt.ne⟩
    · obtain hnone | ⟨a, buf, rfl, hbuf, hpending⟩ := he.pending_request_cases
      · exact .inl hnone
      · exact .inr ⟨a, buf, hf, hbuf, hpending⟩
    · obtain hrun | ⟨e', -, hpending, -⟩ := he.cycle_run_cases hr
      · cases hfault.symm.trans hrun
      · exact hpending

end Sys2Proof.Proofs

/-! # What no instruction reads: the subroutine table, and, MFX apart, X (10_state.md sections 5 and 10) -/

namespace Sys2Proof.Machine

open Sys2Proof.Claims

/-- The state with another X and another subroutine table. -/
def State.withUnread (s : State) (v : Word) (tab : List SubEntry) : State := { s with x := v, subtab := tab }

/-! ## The three instruction shapes that branch -/

theorem execPrint_withUnread (a : Addr) {s t : State} (v : Word) (tab : List SubEntry) (h : execPrint a s = .next t) :
    execPrint a (s.withUnread v tab) = .next (t.withUnread v tab) := by
  have hs : (s.withUnread v tab).cString a = s.cString a := rfl
  unfold execPrint at h ⊢
  rw [hs]
  cases hb : s.cString a with
  | none => rw [hb] at h; cases h; rfl
  | some buf => rw [hb] at h; cases h; rfl

theorem jumpExec_withUnread (c : Cond) (o : Offset) {s t : State} (v : Word) (tab : List SubEntry)
    (h : jumpExec c o s = .next t) : jumpExec c o (s.withUnread v tab) = .next (t.withUnread v tab) := by
  have hcheck : jumpCheck (sint o) (s.withUnread v tab) = jumpCheck (sint o) s := rfl
  have hholds : Cond.holds c (s.withUnread v tab) = Cond.holds c s := by cases c <;> rfl
  unfold jumpExec at h ⊢
  rw [hcheck, hholds]
  cases hc : jumpCheck (sint o) s with
  | some e => rw [hc] at h; cases h; rfl
  | none =>
    rw [hc] at h
    cases h
    cases Cond.holds c s <;> rfl

/-- DIV replaces X where it answers a quotient, and keeps it where it faults. -/
theorem execDiv_withUnread (src dest : Addr) {s t : State} (v : Word) (tab : List SubEntry)
    (h : execDiv src dest s = .next t) :
    ∃ w, (v = s.x → w = t.x) ∧ execDiv src dest (s.withUnread v tab) = .next (t.withUnread w tab) := by
  have hm (a : Addr) : (s.withUnread v tab).memRead a = s.memRead a := rfl
  unfold execDiv at h ⊢
  simp only [hm]
  dsimp only at h
  split at h
  · next hb => cases h; exact ⟨v, id, if_pos hb⟩
  · next hb =>
    rw [if_neg hb]
    split at h
    · next ho => cases h; exact ⟨v, id, if_pos ho⟩
    · next ho => cases h; exact ⟨_, fun _ => rfl, if_neg ho⟩

theorem exec_x_of_not_mul_div {i : Instr} {s t : State} (h : exec i s = .next t)
    (hi : ∀ src dest, i ≠ .mul src dest ∧ i ≠ .div src dest) : t.x = s.x := by
  refine (Effect.of_exec h).x_cases.resolve_right ?_
  rintro ⟨src, dest, hmul | hdiv⟩
  · exact (hi src dest).1 hmul
  · exact (hi src dest).2 hdiv

/-- With another table, and, MFX apart, another X, an instruction does the same to everything else; X then ends as it
was put (`v`), or as MUL or DIV write it. -/
theorem exec_withUnread (i : Instr) {s t : State} {v : Word} (tab : List SubEntry)
    (hv : v = s.x ∨ ∀ dest, i ≠ .mfx dest) (h : exec i s = .next t) :
    ∃ w, (v = s.x → w = t.x) ∧ exec i (s.withUnread v tab) = .next (t.withUnread w tab) := by
  have keepsX (hi : ∀ src dest, i ≠ .mul src dest ∧ i ≠ .div src dest) : v = s.x → v = t.x :=
    fun hvx => hvx.trans (exec_x_of_not_mul_div h hi).symm
  cases i with
  | print a => exact ⟨v, keepsX fun _ _ => ⟨nofun, nofun⟩, execPrint_withUnread a v tab h⟩
  | div src dest => exact execDiv_withUnread src dest v tab h
  | jmp o | jn o | jle o | jz o =>
    exact ⟨v, keepsX fun _ _ => ⟨nofun, nofun⟩, jumpExec_withUnread _ o v tab h⟩
  | mfx dest =>
    obtain rfl := hv.resolve_right fun hne => hne dest rfl
    cases h
    exact ⟨s.x, fun _ => rfl, rfl⟩
  | mul src dest => cases h; exact ⟨_, fun _ => rfl, rfl⟩
  | mov | assign | add | sub | and | or | xor | cmp | shl | shr | sar => cases h; exact ⟨v, id, rfl⟩

/-! ## The subroutine table (R31) -/

theorem exec_subtab (i : Instr) {s t : State} (tab : List SubEntry) (h : exec i s = .next t) :
    exec i { s with subtab := tab } = .next { t with subtab := tab } := by
  obtain ⟨w, hw, hexec⟩ := exec_withUnread i tab (.inl rfl) h
  obtain rfl := hw rfl
  exact hexec

theorem State.finalDrain_with_subtab (s : State) (tab : List SubEntry) :
    State.finalDrain { s with subtab := tab } = { s.finalDrain with subtab := tab } := by
  unfold State.finalDrain
  cases Config.finalDrain with
  | deliver => rw [State.deliver_eq, State.deliver_eq]
  | drop => rfl

theorem step_with_subtab {s t : State} (tab : List SubEntry) (h : step s = .next t) :
    step { s with subtab := tab } = .next { t with subtab := tab } := by
  obtain ⟨hr, rfl⟩ | ⟨hr, hp, rfl⟩ | ⟨hr, -, i, hf, hexec⟩ := step_cases h
  · exact step_of_ready hr
  · refine (step_at_end (s := { s with subtab := tab }) hr hp).trans ?_
    rw [State.finalDrain_with_subtab]
    rfl
  · exact (step_eq_exec (s := { s with subtab := tab }) hr hf).trans (exec_subtab i tab hexec)

theorem step_subtab {s t : State} (h : step s = .next t) : t.subtab = s.subtab := by
  obtain ⟨-, rfl⟩ | ⟨-, -, rfl⟩ | ⟨-, -, i, -, hexec⟩ := step_cases h
  · exact State.start_subtab s
  · simp
  · exact (Effect.of_exec hexec).subtab_eq

end Sys2Proof.Machine

namespace Sys2Proof.Proofs

open Sys2Proof.Machine Sys2Proof.Claims

/-- Settles O24: the instructions that write X, and the run of an instruction with another X. -/
theorem onlyMulAndDivWriteXOnlyMfxReadsIt : Obligations.OnlyMulAndDivWriteXOnlyMfxReadsIt := by
  refine ⟨fun i s t => exec_x_of_not_mul_div, fun i s v hi => ?_⟩
  obtain ⟨t, ht, he⟩ := exec_effect i s
  obtain ⟨w, -, hexec⟩ := exec_withUnread i s.subtab (v := v) (.inr hi) ht
  refine ⟨t, t.withUnread w s.subtab, ht, hexec, ?_⟩
  rw [← he.subtab_eq]
  rfl

/-- Settles O47: no step and no instruction writes the table, and each does the same with another in its place. -/
theorem subroutineTableCannotAffectARun : Obligations.SubroutineTableCannotAffectARun := by
  refine ⟨fun s t => step_subtab, fun s t tab => step_with_subtab tab, fun i s tab => ?_⟩
  obtain ⟨t, ht, he⟩ := exec_effect i s
  exact ⟨t, ht, he.subtab_eq, exec_subtab i tab ht⟩

end Sys2Proof.Proofs

/-! # The Jump family (42_jump.md) -/

namespace Sys2Proof.Claims

open Sys2Proof.Machine

/-- R51: the three bytes are the encoding of the F3 instruction whose field they assemble to. -/
theorem encodedF3_of_encode {op : Byte} {mk : BitVec 16 → Instr} (h : ∀ v, encode (mk v) = op :: bytes16 v) :
    EncodedF3 op mk := by
  intro fh fl rest
  have hbytes : encode (mk (be16 fh fl)) = [op, fh, fl] := by rw [h, bytes16_be16]
  have hsize : (mk (be16 fh fl)).size = 3 := by rw [← encode_length, hbytes]; rfl
  have hdecode := decodeOne_encode_append (mk (be16 fh fl)) rest
  rwa [hbytes, hsize] at hdecode

theorem IsJump.exists_cond {i : Instr} {o : Offset} (h : IsJump i o) : ∃ c, i = Instr.ofCond c o := by
  obtain ⟨c, hd⟩ := h
  have hi := instr_decoded i
  rw [hd] at hi
  exact ⟨c, (Option.some.inj hi).symm⟩

end Sys2Proof.Claims

namespace Sys2Proof.Machine

open Sys2Proof.Claims

theorem exec_ofCond (c : Cond) (o : Offset) (s : State) : exec (Instr.ofCond c o) s = jumpExec c o s := by
  cases c <;> rfl

/-- A jump that passes the bounds check moves pc alone, to its target or nowhere (R85, R88). -/
theorem jumpExec_of_jumpCheck_none (c : Cond) {o : Offset} {s : State} (h : jumpCheck (sint o) s = none) :
    jumpExec c o s = .next { s with pc := if Cond.holds c s then jumpTarget (sint o) s else s.pc } := by
  rw [jumpExec, h]
  cases Cond.holds c s <;> rfl

theorem jumpCheck_of_inBounds {s : State} {p : Nat} {o : Int} (hp : s.pc = p + 1) (h : InBounds p s.progLen o) :
    jumpCheck o s = none := by
  obtain ⟨hneg, hpos⟩ := h
  exact (jumpCheck_eq_none o s).2 ⟨by omega, by omega⟩

/-- The target of a jump in bounds from the instruction at p is p + 1 + o, between 1 and L (R27). -/
theorem jumpTarget_of_inBounds {s : State} {p : Nat} {o : Int} (hp : s.pc = p + 1) (hlt : p < s.progLen)
    (h : InBounds p s.progLen o) :
    (jumpTarget o s : Int) = p + 1 + o ∧ 1 ≤ jumpTarget o s ∧ jumpTarget o s ≤ s.progLen := by
  have hbounds := jumpTarget_bounds (jumpCheck_of_inBounds hp h) (by omega) (by omega)
  rwa [hp, Nat.cast_succ] at hbounds

/-- JMP 0 is a no-op in every state (D20). -/
theorem exec_jmp_zero (s : State) : exec (.jmp 0) s = .next s := by
  have hcheck : jumpCheck (sint (0 : Offset)) s = none := (jumpCheck_eq_none _ s).2 ⟨nofun, nofun⟩
  have htarget : jumpTarget (sint (0 : Offset)) s = s.pc := by simp [jumpTarget]
  exact (jumpExec_of_jumpCheck_none .always hcheck).trans (by rw [htarget, ite_self])

theorem State.atExecute_of_pending_none {s : State} (h : s.pending = none) :
    s.atExecute = { s with pc := s.pc + 1 } := by
  rw [State.atExecute, h, Option.toList_none, List.append_nil, ← h]

/-- JMP −1 goes back to itself, unless it is the first instruction (R90). -/
theorem step_self_jump {s : State} (hr : s.run = .running) (hpending : s.pending = none) (h1 : 1 ≤ s.pc)
    (hf : s.fetch = some (.jmp (-1))) : step s = .next s := by
  have hone : sint (-1 : Offset) = -1 := by decide
  have hcheck : jumpCheck (sint (-1 : Offset)) s.atExecute = none := by
    rw [hone, jumpCheck_eq_none]
    exact ⟨fun _ => by dsimp only [State.atExecute]; omega, nofun⟩
  have htarget : jumpTarget (sint (-1 : Offset)) s.atExecute = s.pc := by
    rw [hone]
    simp [jumpTarget]
  have hexec : exec (.jmp (-1)) s.atExecute = .next { s.atExecute with pc := s.pc } := by
    rw [← htarget]
    exact jumpExec_of_jumpCheck_none .always hcheck
  rw [step_eq_exec hr hf, hexec, State.atExecute_of_pending_none hpending]

/-- A machine whose step leads back to its state stays there. -/
theorem run_of_step_self {M : Host.Core} {s : M.State} (h : M.step s = .next s) (k : Nat) : M.run k s = .next s := by
  induction k with
  | zero => rfl
  | succ k ih => rwa [Host.Core.run, h]

end Sys2Proof.Machine

namespace Sys2Proof.Proofs

open Sys2Proof.Machine Sys2Proof.Claims

/-- Settles O38: the bounds check passes, and the target is in [1, L]. -/
theorem jmpLandsOnItsTarget : Obligations.JmpLandsOnItsTarget := by
  refine ⟨encodedF3_of_encode fun _ => rfl, fun o s p hp hlt hb => ?_⟩
  obtain ⟨htarget, hlow, hhigh⟩ := jumpTarget_of_inBounds hp hlt hb
  exact ⟨_, htarget, hlow, hhigh, jumpExec_of_jumpCheck_none .always (jumpCheck_of_inBounds hp hb)⟩

/-- Settles O39: as for JMP, with the condition read from ST. -/
theorem conditionalJumpsFollowTheFlags : Obligations.ConditionalJumpsFollowTheFlags := by
  refine ⟨encodedF3_of_encode fun _ => rfl, encodedF3_of_encode fun _ => rfl, encodedF3_of_encode fun _ => rfl,
    fun o s p hp hlt hb => ?_⟩
  obtain ⟨htarget, hlow, hhigh⟩ := jumpTarget_of_inBounds hp hlt hb
  have hcheck := jumpCheck_of_inBounds hp hb
  rw [← hp]
  exact ⟨_, htarget, hlow, hhigh, jumpExec_of_jumpCheck_none .neg hcheck,
    jumpExec_of_jumpCheck_none .negOrZero hcheck, jumpExec_of_jumpCheck_none .zero hcheck⟩

/-- Settles O41: JMP 0 passes every bounds check and its target is where pc stands. -/
theorem jmpZeroIsNop : Obligations.JmpZeroIsNop := by
  refine ⟨by decide, exec_jmp_zero, fun s hr hpending hf => ?_⟩
  rw [step_eq_exec hr hf, exec_jmp_zero, State.atExecute_of_pending_none hpending]

/-- Settles O20: the step answers the state itself, so any number of steps does. -/
theorem selfJumpNeverEnds : Obligations.SelfJumpNeverEnds :=
  fun _ k hr hpending h1 hf => run_of_step_self (M := core) (step_self_jump hr hpending h1 hf) k

end Sys2Proof.Proofs

/-! # PRINT's string (43_syscall.md) -/

namespace Sys2Proof.Machine

open Sys2Proof.Claims

/-- PRINT's scan in the words of the statements: the bytes before the first zero byte, if there is one (R94). -/
theorem State.cString_eq (s : State) (addr : Addr) :
    s.cString addr
      = if 0x00#8 ∈ stringBytes s addr then some ((stringBytes s addr).takeWhile (· != 0x00#8)) else none :=
  scanCells_eq s.mem (Config.memCells - uint addr) (uint addr) []

theorem State.cString_eq_none_iff (s : State) (addr : Addr) : s.cString addr = none ↔ 0x00#8 ∉ stringBytes s addr := by
  simp [State.cString_eq]

theorem exec_print_of_mem {s : State} {addr : Addr} (h : 0x00#8 ∈ stringBytes s addr) :
    exec (.print addr) s
      = .next { s with pending := some (.print ((stringBytes s addr).takeWhile (· != 0x00#8))) } := by
  rw [exec, execPrint, State.cString_eq, if_pos h]
  rfl

theorem not_mem_of_cString {s : State} {addr : Addr} {buf : List Byte} (h : s.cString addr = some buf) :
    0x00#8 ∉ buf := by
  rw [State.cString_eq] at h
  split at h
  · cases h
    intro hmem
    simpa using List.mem_takeWhile_imp hmem
  · cases h

end Sys2Proof.Machine

/-! # Which instruction raises which error (60_exceptions.md section 3) -/

namespace Sys2Proof.Machine

open Sys2Proof.Claims

/-- The causes of R112: `Raises i s e` says why `i` raises `e` in `s`. -/
inductive Raises (i : Instr) (s : State) : RunError → Prop where
  | badJump (c : Cond) (o : Offset) (e : RunError) (hi : i = Instr.ofCond c o)
      (hc : jumpCheck (sint o) s = some e) : Raises i s e
  | divZero (src dest : Addr) (hi : i = .div src dest) (hb : s.memRead src = 0) :
      Raises i s (.divisionByZero src dest)
  | divOverflow (src dest : Addr) (hi : i = .div src dest) (ha : s.memRead dest = 0x80000000)
      (hb : s.memRead src = 0xFFFFFFFF) : Raises i s (.divideOverflow src dest)
  | noString (a : Addr) (hi : i = .print a) (hb : 0x00#8 ∉ stringBytes s a) : Raises i s (.unterminatedString a)

/-- A cause raises its error. -/
theorem Raises.exec_eq {i : Instr} {s : State} {e : RunError} (h : Raises i s e) : exec i s = .next (s.raise e) := by
  cases h with
  | badJump c o e hi hc => rw [hi, exec_ofCond, jumpExec, hc]
  | divZero src dest hi hb =>
    rw [hi, exec, execDiv, hb]
    rfl
  | divOverflow src dest hi ha hb =>
    rw [hi, exec, execDiv, ha, hb]
    rfl
  | noString a hi hb => rw [hi, exec, execPrint, (s.cString_eq_none_iff a).2 hb]

/-- An instruction that faults has a cause. -/
theorem Effect.raises {i : Instr} {s t : State} {e : RunError} {q : Nat} (h : Effect i s t) (hs : s.run = .running)
    (ht : t.run = .faulted e q) : Raises i s e := by
  have ne {r : RunState} (hr : r = .running) : r ≠ .faulted e q := by rw [hr]; exact nofun
  cases h with
  | badJump c o e hi hc => cases ht; exact .badJump c o _ hi hc
  | divZero src d hi hb => cases ht; exact .divZero src d hi (BitVec.eq_of_toInt_eq hb)
  | divOverflow src d hi ha hb =>
    cases ht
    exact .divOverflow src d hi (BitVec.eq_of_toInt_eq ha) (BitVec.eq_of_toInt_eq hb)
  | noString a hi hb => cases ht; exact .noString a hi ((s.cString_eq_none_iff a).1 hb)
  | cell | cellX | flags | goto | skip | request => exact absurd ht (ne hs)

theorem exec_faulted_iff {i : Instr} {s : State} {p : Nat} {e : RunError} {q : Nat} (hs : s.run = .running)
    (hp : s.pc = p + 1) : (∃ t, exec i s = .next t ∧ t.run = .faulted e q) ↔ q = p ∧ Raises i s e := by
  constructor
  · rintro ⟨t, hexec, ht⟩
    have he := Effect.of_exec hexec
    have hraise := (he.eq_raise_of_faulted hs ht).trans (State.raise_eq e hp)
    subst hraise
    cases ht
    exact ⟨rfl, he.raises hs rfl⟩
  · rintro ⟨rfl, hcause⟩
    exact ⟨_, hcause.exec_eq, by rw [State.raise_eq e hp]⟩

/-- The bounds check's error, from the instruction's own index p (R86). -/
theorem jumpCheck_eq_some_iff {o : Int} {s : State} {p : Nat} {e : RunError} (hp : s.pc = p + 1) :
    jumpCheck o s = some e ↔
      (e = .invalidNegativeOffset o ∧ o < 0 ∧ (p : Int) + o < 0)
        ∨ (e = .invalidPositiveOffset o ∧ 0 < o ∧ (s.progLen : Int) - 1 < (p : Int) + o) := by
  have hneg : (s.pc : Int) + o < 1 ↔ (p : Int) + o < 0 := by omega
  have hpos : (s.progLen : Int) < s.pc + o ↔ (s.progLen : Int) - 1 < (p : Int) + o := by omega
  rw [jumpCheck_eq_some, hneg, hpos]

/-- A jump that fails its bounds check raises, whatever its condition (R87). -/
theorem Raises.of_isJump {i : Instr} {o : Offset} {s : State} {e : RunError} (hi : IsJump i o)
    (hc : jumpCheck (sint o) s = some e) : Raises i s e := by
  obtain ⟨c, rfl⟩ := hi.exists_cond
  exact .badJump c o e rfl hc

theorem Raises.exec_eq_faulted {i : Instr} {s : State} {e : RunError} {p : Nat} (h : Raises i s e)
    (hp : s.pc = p + 1) : exec i s = .next { s with run := .faulted e p } := by
  rw [h.exec_eq, State.raise_eq e hp]

end Sys2Proof.Machine

namespace Sys2Proof.Proofs

open Sys2Proof.Machine Sys2Proof.Claims

/-- Settles O22: an instruction that faults has a cause, and each cause raises its error. -/
theorem eachErrorHasItsCause : Obligations.EachErrorHasItsCause := by
  intro i s p e q hs hp
  refine (exec_faulted_iff hs hp).trans (and_congr_right fun _ => ⟨fun h => ?_, ?_⟩)
  · cases h with
    | badJump c o e hi hc =>
      have hj : IsJump i o := hi ▸ isJump_ofCond c o
      obtain ⟨he, hneg, hp⟩ | ⟨he, hpos, hp⟩ := (jumpCheck_eq_some_iff hp).1 hc
      · exact .inl ⟨o, hj, he, hneg, hp⟩
      · exact .inr (.inl ⟨o, hj, he, hpos, hp⟩)
    | divZero src dest hi hb => exact .inr (.inr (.inl ⟨src, dest, hi, rfl, hb⟩))
    | divOverflow src dest hi ha hb => exact .inr (.inr (.inr (.inl ⟨src, dest, hi, rfl, ha, hb⟩)))
    | noString a hi hb => exact .inr (.inr (.inr (.inr ⟨a, hi, rfl, hb⟩)))
  · rintro (⟨o, hj, he, hneg, hlow⟩ | ⟨o, hj, he, hpos, hhigh⟩ | ⟨src, dest, hi, rfl, hb⟩
      | ⟨src, dest, hi, rfl, ha, hb⟩ | ⟨a, hi, rfl, hb⟩)
    · exact .of_isJump hj ((jumpCheck_eq_some_iff hp).2 (.inl ⟨he, hneg, hlow⟩))
    · exact .of_isJump hj ((jumpCheck_eq_some_iff hp).2 (.inr ⟨he, hpos, hhigh⟩))
    · exact .divZero src dest hi hb
    · exact .divOverflow src dest hi ha hb
    · exact .noString a hi hb

/-- Settles O40: the bounds check raises before the condition is looked at. -/
theorem jumpOutOfBoundsFaultsTakenOrNot : Obligations.JumpOutOfBoundsFaultsTakenOrNot := by
  refine fun i o s p hj hp => ⟨fun hneg hlow => ?_, fun hpos hhigh => ?_⟩
  · exact (Raises.of_isJump hj ((jumpCheck_eq_some_iff hp).2 (.inl ⟨rfl, hneg, hlow⟩))).exec_eq_faulted hp
  · exact (Raises.of_isJump hj ((jumpCheck_eq_some_iff hp).2 (.inr ⟨rfl, hpos, hhigh⟩))).exec_eq_faulted hp

/-- Settles O36: DIV's two causes, whose fault is all that changes. -/
theorem divErrorsWriteNothing : Obligations.DivErrorsWriteNothing :=
  fun src dest _ _ hp => ⟨fun hb => (Raises.divZero src dest rfl hb).exec_eq_faulted hp,
    fun ha hb => (Raises.divOverflow src dest rfl ha hb).exec_eq_faulted hp⟩

/-- Settles O42: the encoding of R51, PRINT's scan, and its one cause of an error. -/
theorem printRequestsTheStringAtAddr : Obligations.PrintRequestsTheStringAtAddr :=
  ⟨encodedF3_of_encode fun _ => rfl, fun addr _ _ hp => ⟨exec_print_of_mem,
    fun h => (Raises.noString addr rfl h).exec_eq_faulted hp⟩⟩

/-- Settles O26: MOV is one memory write, a jump moves pc or raises, PRINT leaves a request or raises. -/
theorem frameOfMovJumpAndPrint : Obligations.FrameOfMovJumpAndPrint := by
  refine ⟨fun lit dest s t h => ?_, fun i o s t hj h => ?_, fun addr s t h => ?_⟩
  · cases h
    obtain ⟨-, hother, hframe⟩ := writesCell_memWrite s dest lit
    exact ⟨hframe, hother⟩
  · obtain ⟨c, rfl⟩ := hj.exists_cond
    rw [exec_ofCond] at h
    obtain ⟨e, -, he⟩ | ⟨-, -, he⟩ | ⟨-, -, he⟩ := jumpExec_cases c o s <;> cases h.symm.trans he
    · exact ⟨rfl, .inl rfl, fun _ => rfl⟩
    · exact ⟨rfl, .inr rfl, fun _ => rfl⟩
    · exact ⟨rfl, .inl rfl, fun _ => rfl⟩
  · by_cases hz : 0x00#8 ∈ stringBytes s addr
    · cases h.symm.trans (exec_print_of_mem hz)
      exact ⟨rfl, .inr rfl, fun _ => rfl⟩
    · cases h.symm.trans (Raises.noString addr rfl hz).exec_eq
      exact ⟨rfl, .inl rfl, fun _ => rfl⟩

end Sys2Proof.Proofs

/-! # The arithmetic of the Alu family (41_alu.md sections 3 to 6) -/

namespace Sys2Proof.Machine

open Sys2Proof.Claims

/-! ## Subtraction and comparison (R76, R77) -/

theorem exec_sub (src dest : Addr) (s : State) :
    exec (.sub src dest) s = .next (s.memWrite dest (s.memRead dest - s.memRead src)) := by
  rw [← trunc32_sub]
  rfl

theorem cmpFlags_z (st : Byte) (a b : Word) : (cmpFlags st a b).getLsbD 0 = true ↔ a = b := by
  rw [cmpFlags_eq, setFlags_z, decide_eq_true_iff]

theorem cmpFlags_n (st : Byte) (a b : Word) :
    (cmpFlags st a b).getLsbD 1 = true ↔ (sint a - sint b).bmod (2 ^ 32) < 0 := by
  rw [cmpFlags_eq, setFlags_n, decide_eq_true_iff, sint, BitVec.toInt_sub]

theorem cmpFlags_unused (st : Byte) (a b : Word) (k : Nat) (h : 2 ≤ k) :
    (cmpFlags st a b).getLsbD k = st.getLsbD k := by
  rw [cmpFlags_eq, setFlags_unused st _ _ k h]

/-- Where the exact difference fits in 32 bits, wrapping leaves it (D4). -/
theorem bmod_eq_self_of_fits {d : Int} (hlow : -2 ^ 31 ≤ d) (hhigh : d < 2 ^ 31) : d.bmod (2 ^ 32) = d :=
  Int.bmod_eq_of_le (by omega) (by omega)

/-! ## Shifts (R79 to R81) -/

theorem trunc32_natCast (n : Nat) : trunc32 (n : Int) = BitVec.ofNat 32 n := BitVec.ofInt_natCast 32 n

theorem trunc32_shl (a : Word) (k : Nat) : trunc32 ((uint a * 2 ^ k : Nat)) = a <<< k := by
  apply BitVec.eq_of_toNat_eq
  rw [trunc32_natCast, BitVec.toNat_ofNat, BitVec.toNat_shiftLeft, Nat.shiftLeft_eq]

theorem trunc32_shr (a : Word) (k : Nat) : trunc32 ((uint a / 2 ^ k : Nat)) = a >>> k := by
  apply BitVec.eq_of_toNat_eq
  rw [trunc32_natCast, BitVec.toNat_ofNat, BitVec.toNat_ushiftRight, Nat.shiftRight_eq_div_pow]
  exact Nat.mod_eq_of_lt ((Nat.div_le_self _ _).trans_lt a.isLt)

theorem trunc32_sar (a : Word) (k : Nat) : trunc32 (Int.fdiv (sint a) (2 ^ k)) = a.sshiftRight k := by
  have hdiv : Int.fdiv (sint a) (2 ^ k) = (a.sshiftRight k).toInt := by
    rw [BitVec.toInt_sshiftRight, Int.shiftRight_eq_div_pow, Int.fdiv_eq_ediv_of_nonneg _ (by positivity)]
    norm_cast
  rw [hdiv, trunc32, BitVec.ofInt_toInt]

theorem exec_shl (src dest : Addr) (s : State) :
    exec (.shl src dest) s = .next (s.memWrite dest (s.memRead dest <<< (uint (s.memRead src) % 32))) := by
  rw [← shiftAmount_eq, ← trunc32_shl]
  rfl

theorem exec_shr (src dest : Addr) (s : State) :
    exec (.shr src dest) s = .next (s.memWrite dest (s.memRead dest >>> (uint (s.memRead src) % 32))) := by
  rw [← shiftAmount_eq, ← trunc32_shr]
  rfl

theorem exec_sar (src dest : Addr) (s : State) :
    exec (.sar src dest) s
      = .next (s.memWrite dest ((s.memRead dest).sshiftRight (uint (s.memRead src) % 32))) := by
  rw [← shiftAmount_eq, ← trunc32_sar]
  rfl

/-! ## Multiplication and division (R82, R83) -/

/-- A write of a cell and of X is the change that the statements speak of. -/
theorem writesCellAndX_withX (s : State) (dest : Addr) (v x : Word) :
    WritesCellAndX s ((s.memWrite dest v).withX x) dest v x :=
  ⟨s.memWrite_read_self dest v, rfl, fun _ ha => s.memWrite_read_other v ha, rfl⟩

/-- The two words of a 64-bit value, the high one signed, are its signed value. -/
theorem highWord_lowWord (w : BitVec 64) : sint (highWord w) * 2 ^ 32 + uint (lowWord w) = sint w := by
  have hw := w.isLt
  have hlow : (lowWord w).toNat = w.toNat % 2 ^ 32 := by
    rw [lowWord, BitVec.extractLsb'_toNat, Nat.shiftRight_zero]
  have hhigh : (highWord w).toNat = w.toNat / 2 ^ 32 := by
    rw [highWord, BitVec.extractLsb'_toNat, Nat.shiftRight_eq_div_pow]
    omega
  rw [uint, hlow, sint, sint, BitVec.toInt_eq_toNat_cond, BitVec.toInt_eq_toNat_cond, hhigh]
  split <;> split <;> push_cast <;> omega

theorem lowWord_trunc64_mul (a b : Word) : lowWord (trunc64 (sint a * sint b)) = a * b := by
  have hlow (i : Int) : lowWord (trunc64 i) = BitVec.ofInt 32 i := by
    apply BitVec.eq_of_toNat_eq
    rw [lowWord, trunc64, BitVec.extractLsb'_toNat, BitVec.toNat_ofInt, BitVec.toNat_ofInt]
    omega
  rw [hlow, BitVec.ofInt_mul, BitVec.ofInt_toInt, BitVec.ofInt_toInt]

theorem sint_bounds (a : Word) : -2 ^ 31 ≤ sint a ∧ sint a < 2 ^ 31 :=
  ⟨BitVec.le_toInt a, BitVec.toInt_lt⟩

/-- The product of two cells fits in 64 bits. -/
theorem sint_trunc64_mul (a b : Word) : sint (trunc64 (sint a * sint b)) = sint a * sint b := by
  obtain ⟨ha, ha'⟩ := sint_bounds a
  obtain ⟨hb, hb'⟩ := sint_bounds b
  have habs : |sint a * sint b| ≤ 2 ^ 31 * 2 ^ 31 := by
    rw [abs_mul]
    exact mul_le_mul (abs_le.2 ⟨ha, ha'.le⟩) (abs_le.2 ⟨hb, hb'.le⟩) (abs_nonneg _) (by norm_num)
  obtain ⟨hlow, hhigh⟩ := abs_le.1 habs
  rw [trunc64, sint, BitVec.toInt_ofInt]
  exact Int.bmod_eq_of_le (by omega) (by omega)

/-- The truncated quotient, wrapped: it overflows for −2^31 ÷ −1 alone. -/
theorem trunc32_tdiv (a b : Word) : trunc32 (Int.tdiv (sint a) (sint b)) = a.sdiv b := by
  apply BitVec.eq_of_toInt_eq
  rw [trunc32, BitVec.toInt_ofInt, BitVec.toInt_sdiv]

theorem trunc32_remainder (a b : Word) :
    trunc32 (sint a - Int.tdiv (sint a) (sint b) * sint b) = a.srem b := by
  have hrem : sint a - Int.tdiv (sint a) (sint b) * sint b = (a.srem b).toInt := by
    rw [BitVec.toInt_srem, Int.tmod_def, Int.mul_comm]
  rw [hrem, trunc32, BitVec.ofInt_toInt]

/-- DIV outside its two errors. -/
theorem exec_div {src dest : Addr} {s : State} (hzero : s.memRead src ≠ 0)
    (hoverflow : ¬ (s.memRead dest = 0x80000000 ∧ s.memRead src = 0xFFFFFFFF)) :
    exec (.div src dest) s
      = .next ((s.memWrite dest ((s.memRead dest).sdiv (s.memRead src))).withX
          ((s.memRead dest).srem (s.memRead src))) := by
  have hb : ¬ sint (s.memRead src) = 0 := fun h => hzero (BitVec.eq_of_toInt_eq h)
  have ho : ¬ (sint (s.memRead dest) = -2 ^ 31 ∧ sint (s.memRead src) = -1) := fun ⟨ha, hb⟩ =>
    hoverflow ⟨BitVec.eq_of_toInt_eq ha, BitVec.eq_of_toInt_eq hb⟩
  rw [← trunc32_tdiv, ← trunc32_remainder]
  exact (if_neg hb).trans (if_neg ho)

theorem sdiv_mul_add_srem {a b : Word} (hoverflow : ¬ (a = 0x80000000 ∧ b = 0xFFFFFFFF)) :
    sint (a.sdiv b) * sint b + sint (a.srem b) = sint a := by
  have hquotient : (a.sdiv b).toInt = a.toInt.tdiv b.toInt :=
    BitVec.toInt_sdiv_of_ne_or_ne a b (not_and_or.1 hoverflow)
  rw [sint, hquotient, sint, sint, BitVec.toInt_srem, Int.mul_comm]
  exact Int.mul_tdiv_add_tmod _ _

theorem abs_srem_lt (a : Word) {b : Word} (hzero : b ≠ 0) : |sint (a.srem b)| < |sint b| := by
  have hb : 0 < b.toInt.natAbs := Int.natAbs_pos.2 fun h => hzero (BitVec.eq_of_toInt_eq h)
  rw [sint, BitVec.toInt_srem, Int.abs_eq_natAbs, Int.abs_eq_natAbs, Int.natAbs_tmod]
  exact_mod_cast Nat.mod_lt _ hb

/-- The remainder has the sign of the dividend (D7). -/
theorem srem_sign (a b : Word) : sint (a.srem b) = 0 ∨ (0 < sint (a.srem b) ↔ 0 < sint a) := by
  have hsign : (sint (a.srem b)).sign = if sint b ∣ sint a then 0 else (sint a).sign := by
    rw [sint, BitVec.toInt_srem, Int.sign_tmod]
  split at hsign
  · exact .inl (Int.sign_eq_zero_iff_zero.1 hsign)
  · exact .inr (by rw [← Int.sign_eq_one_iff_pos, hsign, Int.sign_eq_one_iff_pos])

end Sys2Proof.Machine

namespace Sys2Proof.Proofs

open Sys2Proof.Machine Sys2Proof.Claims

/-- Settles O31: SUB writes the bit-vector difference, whose signed reading is the wrapped difference. -/
theorem subWrapsDestMinusSource : Obligations.SubWrapsDestMinusSource := by
  refine ⟨encodedF5_ofAlu (a := .sub) rfl, fun src dest s =>
    ⟨_, exec_sub src dest s, writesCell_memWrite s dest _, ?_⟩⟩
  rw [State.memWrite_read_self]
  exact BitVec.toInt_sub

/-- Settles O32: the bits of the one byte that CMP makes. -/
theorem cmpSetsZAndN : Obligations.CmpSetsZAndN := by
  refine ⟨encodedF5_ofAlu (a := .cmp) rfl, fun src dest s =>
    ⟨_, rfl, rfl, cmpFlags_z _ _ _, cmpFlags_n _ _ _, fun hlow hhigh => ?_, cmpFlags_unused _ _ _⟩⟩
  refine (cmpFlags_n _ _ _).trans ?_
  rw [bmod_eq_self_of_fits hlow hhigh, sub_neg]

/-- Settles O33: each shift is one memory write of the bit-vector shift. -/
theorem shiftsUseTheLowFiveBits : Obligations.ShiftsUseTheLowFiveBits :=
  ⟨⟨encodedF5_ofAlu (a := .shl) rfl, fun src dest s => ⟨_, exec_shl src dest s, writesCell_memWrite s dest _⟩⟩,
    ⟨encodedF5_ofAlu (a := .shr) rfl, fun src dest s => ⟨_, exec_shr src dest s, writesCell_memWrite s dest _⟩⟩,
    ⟨encodedF5_ofAlu (a := .sar) rfl, fun src dest s => ⟨_, exec_sar src dest s, writesCell_memWrite s dest _⟩⟩⟩

/-- Settles O34: the two words of the product, which fits in 64 bits. -/
theorem mulSplitsTheExactProduct : Obligations.MulSplitsTheExactProduct :=
  ⟨encodedF5_ofAlu (a := .mul) rfl, fun _ dest s =>
    ⟨_, _, _, rfl, writesCellAndX_withX s dest _ _, lowWord_trunc64_mul _ _,
      (highWord_lowWord _).trans (sint_trunc64_mul _ _)⟩⟩

/-- Settles O35: DIV writes the bit-vector quotient and remainder, which do not overflow. -/
theorem divGivesQuotientAndRemainder : Obligations.DivGivesQuotientAndRemainder :=
  ⟨encodedF5_ofAlu (a := .div) rfl, fun _ dest s hzero hoverflow =>
    ⟨_, _, _, exec_div hzero hoverflow, writesCellAndX_withX s dest _ _, sdiv_mul_add_srem hoverflow,
      abs_srem_lt _ hzero, srem_sign _ _⟩⟩

/-- Settles O37: the encoding of R51, and the shared ALU shape with the value of X. -/
theorem mfxCopiesX : Obligations.MfxCopiesX :=
  ⟨encodedF3_of_encode fun _ => rfl, fun dest s => ⟨_, rfl, writesCell_aluUpdate s .extraX dest fun _ b => b, rfl⟩⟩

end Sys2Proof.Proofs

/-! # The host's side: the debug port (00_scope.md section 4) and the string of a request (43_syscall.md) -/

namespace Sys2Proof.Machine

open Sys2Proof.Claims

/-! ## The debug port (R9) -/

theorem State.debugRead_accepted {s : State} {a n : Nat} (hr : s.run ≠ .running) (hn : a + n ≤ Config.memCells) :
    s.debugRead a n = .accepted ((List.range' a n).map (Memory.read s.mem)) := by
  rw [State.debugRead, if_neg hr, if_neg hn.not_gt]

theorem State.debugRead_past_end {s : State} {a n : Nat} (hn : Config.memCells < a + n) :
    s.debugRead a n = .refused := by
  rw [State.debugRead, if_pos hn, ite_self]

theorem State.debugRead_running {s : State} (a n : Nat) (hr : s.run = .running) : s.debugRead a n = .refused :=
  if_pos hr

theorem getElem?_map_range' {f : Nat → Word} {a n k : Nat} (hk : k < n) :
    ((List.range' a n).map f)[k]? = some (f (a + k)) := by
  rw [List.getElem?_map, List.getElem?_range' hk, Nat.one_mul]
  rfl

/-! ## UTF8_LOSSY on well-formed bytes (R95): lead bytes by the length of their sequence, then the bytes that follow -/

theorem utf8Lead_one {n : Nat} (h : n < 0x80) : utf8Lead (BitVec.ofNat 8 n) = (some (Char.ofNat n), none) := by
  have hn : (BitVec.ofNat 8 n).toNat = n := by rw [BitVec.toNat_ofNat]; omega
  simp only [utf8Lead, hn, if_pos h]

theorem utf8Lead_two : ∀ k < 0x20, 2 ≤ k →
    utf8Lead (BitVec.ofNat 8 (0xC0 + k)) = (none, some ⟨k, 1, 0x80, 0xBF⟩) := by
  decide

theorem utf8Lead_three : ∀ k < 0x10, utf8Lead (BitVec.ofNat 8 (0xE0 + k))
    = (none, some ⟨k, 2, if k = 0 then 0xA0 else 0x80, if k = 0xD then 0x9F else 0xBF⟩) := by
  decide

theorem utf8Lead_four : ∀ k < 5, utf8Lead (BitVec.ofNat 8 (0xF0 + k))
    = (none, some ⟨k, 3, if k = 0 then 0x90 else 0x80, if k = 4 then 0x8F else 0xBF⟩) := by
  decide

theorem utf8Decode_lead {b : Byte} {q : Utf8Partial} (h : utf8Lead b = (none, some q)) (bs : List Byte) :
    utf8Decode none (b :: bs) = utf8Decode (some q) bs := by
  simp only [utf8Decode, h, Option.toList_none, List.nil_append]

theorem utf8Decode_last {acc lo hi : Nat} {b : Byte} (hin : lo ≤ b.toNat ∧ b.toNat ≤ hi) (bs : List Byte) :
    utf8Decode (some ⟨acc, 1, lo, hi⟩) (b :: bs) = Char.ofNat (acc * 64 + (b.toNat - 0x80)) :: utf8Decode none bs := by
  rw [utf8Decode, if_pos hin]
  rfl

theorem utf8Decode_next {acc due lo hi : Nat} {b : Byte} (hin : lo ≤ b.toNat ∧ b.toNat ≤ hi) (bs : List Byte) :
    utf8Decode (some ⟨acc, due + 2, lo, hi⟩) (b :: bs)
      = utf8Decode (some ⟨acc * 64 + (b.toNat - 0x80), due + 1, 0x80, 0xBF⟩) bs := by
  rw [utf8Decode, if_pos hin]
  rfl

theorem toNat_six_bits {k : Nat} (hk : k < 0x40) : (BitVec.ofNat 8 (0x80 + k)).toNat = 0x80 + k := by
  rw [BitVec.toNat_ofNat]
  omega

/-- The last byte of a sequence, by its six bits `k`. -/
theorem utf8Decode_last_six_bits {acc lo hi k : Nat} (hk : k < 0x40) (hlo : lo ≤ 0x80 + k) (hhi : 0x80 + k ≤ hi)
    (bs : List Byte) :
    utf8Decode (some ⟨acc, 1, lo, hi⟩) (BitVec.ofNat 8 (0x80 + k) :: bs)
      = Char.ofNat (acc * 64 + k) :: utf8Decode none bs := by
  rw [utf8Decode_last (by rw [toNat_six_bits hk]; exact ⟨hlo, hhi⟩), toNat_six_bits hk, Nat.add_sub_cancel_left]

/-- A byte inside a sequence, by its six bits `k`. -/
theorem utf8Decode_next_six_bits {acc due lo hi k : Nat} (hk : k < 0x40) (hlo : lo ≤ 0x80 + k) (hhi : 0x80 + k ≤ hi)
    (bs : List Byte) :
    utf8Decode (some ⟨acc, due + 2, lo, hi⟩) (BitVec.ofNat 8 (0x80 + k) :: bs)
      = utf8Decode (some ⟨acc * 64 + k, due + 1, 0x80, 0xBF⟩) bs := by
  rw [utf8Decode_next (by rw [toNat_six_bits hk]; exact ⟨hlo, hhi⟩), toNat_six_bits hk, Nat.add_sub_cancel_left]

/-- The code points that are characters: all below 110000 (hexadecimal) but the surrogates. -/
abbrev IsScalar (n : Nat) : Prop := n < 0xD800 ∨ 0xE000 ≤ n ∧ n < 0x110000

theorem isScalar_toNat (c : Char) : IsScalar c.toNat := by
  have h := c.valid
  unfold UInt32.isValidChar Nat.isValidChar at h
  unfold IsScalar Char.toNat
  omega

theorem utf8Decode_encode {n : Nat} (h : IsScalar n) (bs : List Byte) :
    utf8Decode none (utf8Encode n ++ bs) = Char.ofNat n :: utf8Decode none bs := by
  unfold utf8Encode
  split
  · next h1 => simp only [List.cons_append, List.nil_append, utf8Decode, utf8Lead_one h1, Option.toList_some]
  split
  · rw [List.cons_append, List.cons_append, List.nil_append, utf8Decode_lead (utf8Lead_two _ (by omega) (by omega)),
      utf8Decode_last_six_bits (by omega) (by omega) (by omega)]
    congr 2
    omega
  split
  · rw [List.cons_append, List.cons_append, List.cons_append, List.nil_append,
      utf8Decode_lead (utf8Lead_three _ (by omega)),
      utf8Decode_next_six_bits (by omega) (by split <;> omega) (by split <;> omega),
      utf8Decode_last_six_bits (by omega) (by omega) (by omega)]
    congr 2
    omega
  · rw [List.cons_append, List.cons_append, List.cons_append, List.cons_append, List.nil_append,
      utf8Decode_lead (utf8Lead_four _ (by omega)),
      utf8Decode_next_six_bits (by omega) (by split <;> omega) (by split <;> omega),
      utf8Decode_next_six_bits (by omega) (by omega) (by omega),
      utf8Decode_last_six_bits (by omega) (by omega) (by omega)]
    congr 2
    omega

theorem utf8Lossy_encode (chars : List Char) : utf8Lossy (chars.flatMap fun c => utf8Encode c.toNat) = chars := by
  induction chars with
  | nil => rfl
  | cons c cs ih =>
    rw [utf8Lossy] at ih ⊢
    rw [List.flatMap_cons, utf8Decode_encode (isScalar_toNat c), ih, Char.ofNat_toNat]

/-! ## UTF8_LOSSY makes no U+0000 of other bytes -/

theorem ofNat_ne_nul {n : Nat} (hn : IsScalar n) (h0 : n ≠ 0) : Char.ofNat n ≠ Char.ofNat 0 := by
  intro h
  have hvalid : n.isValidChar := by
    unfold Nat.isValidChar
    unfold IsScalar at hn
    omega
  have htoNat : (Char.ofNat n).toNat = (Char.ofNat 0).toNat := congrArg Char.toNat h
  rw [Char.toNat_ofNat, if_pos hvalid] at htoNat
  exact h0 htoNat

/-- The least code point that the bytes still due can give. -/
def Utf8Partial.low (q : Utf8Partial) : Nat := (q.acc * 64 + (q.lo - 0x80)) * 64 ^ (q.due - 1)

/-- One more than the greatest code point that they can give. -/
def Utf8Partial.high (q : Utf8Partial) : Nat := (q.acc * 64 + (q.hi - 0x80) + 1) * 64 ^ (q.due - 1)

/-- Whatever bytes follow, the sequence gives a character that is not U+0000. -/
structure Utf8Partial.Sound (q : Utf8Partial) : Prop where
  due : 1 ≤ q.due
  pos : 1 ≤ q.low
  scalar : q.high ≤ 0xD800 ∨ 0xE000 ≤ q.low ∧ q.high ≤ 0x110000

/-- One byte narrows the range of code points from below, and from above. -/
theorem Utf8Partial.low_le_next {acc due lo hi n : Nat} (hlo : lo ≤ n) :
    low ⟨acc, due + 2, lo, hi⟩ ≤ low ⟨acc * 64 + (n - 0x80), due + 1, 0x80, 0xBF⟩ := by
  simp only [low, Nat.add_one_sub_one, Nat.pow_succ', ← Nat.mul_assoc]
  exact Nat.mul_le_mul_right _ (by omega)

theorem Utf8Partial.next_le_high {acc due lo hi n : Nat} (hhi : n ≤ hi) :
    high ⟨acc * 64 + (n - 0x80), due + 1, 0x80, 0xBF⟩ ≤ high ⟨acc, due + 2, lo, hi⟩ := by
  simp only [high, Nat.add_one_sub_one, Nat.pow_succ', ← Nat.mul_assoc]
  exact Nat.mul_le_mul_right _ (by omega)

theorem Utf8Partial.Sound.next {acc due lo hi n : Nat} (h : Sound ⟨acc, due + 2, lo, hi⟩) (hlo : lo ≤ n)
    (hhi : n ≤ hi) : Sound ⟨acc * 64 + (n - 0x80), due + 1, 0x80, 0xBF⟩ := by
  obtain ⟨-, hpos, hscalar⟩ := h
  have hlow := low_le_next (acc := acc) (due := due) (hi := hi) hlo
  have hhigh := next_le_high (acc := acc) (due := due) (lo := lo) hhi
  exact ⟨Nat.succ_pos due, by omega, by omega⟩

theorem Utf8Partial.Sound.char_ne_nul {acc lo hi n : Nat} (h : Sound ⟨acc, 1, lo, hi⟩) (hlo : lo ≤ n) (hhi : n ≤ hi) :
    Char.ofNat (acc * 64 + (n - 0x80)) ≠ Char.ofNat 0 := by
  obtain ⟨-, hpos, hscalar⟩ := h
  simp only [low, high] at hpos hscalar
  exact ofNat_ne_nul (by unfold IsScalar; omega) (by omega)

/-- Everything a byte at the start of a sequence can give. -/
theorem utf8Lead_cases (b : Byte) :
    (b.toNat < 0x80 ∧ utf8Lead b = (some (Char.ofNat b.toNat), none))
      ∨ utf8Lead b = (some replacementChar, none)
      ∨ ∃ q, utf8Lead b = (none, some q) ∧ q.Sound := by
  unfold utf8Lead
  dsimp only
  split_ifs with hascii
  · exact .inl ⟨hascii, rfl⟩
  case pos | neg => exact .inr (.inl rfl)
  all_goals
    refine .inr (.inr ⟨_, rfl, ?_⟩)
    constructor <;> simp only [Utf8Partial.low, Utf8Partial.high, Nat.reduceSub, Nat.reducePow] <;> omega

theorem replacementChar_ne_nul : replacementChar ≠ Char.ofNat 0 := by decide

/-- A byte other than 00 at the start of a sequence makes no U+0000, by itself or with the bytes that follow it. -/
theorem nul_not_mem_of_lead {b : Byte} (hb : b ≠ 0x00#8) {bs : List Byte}
    (hrest : ∀ r : Option Utf8Partial, (∀ q, r = some q → q.Sound) → Char.ofNat 0 ∉ utf8Decode r bs) :
    Char.ofNat 0 ∉ (utf8Lead b).1.toList ++ utf8Decode (utf8Lead b).2 bs := by
  obtain ⟨hascii, h⟩ | h | ⟨q, h, hq⟩ := utf8Lead_cases b <;> rw [h]
  · have hchar : Char.ofNat b.toNat ≠ Char.ofNat 0 :=
      ofNat_ne_nul (by unfold IsScalar; omega) fun h0 => hb (BitVec.eq_of_toNat_eq h0)
    exact List.not_mem_cons_of_ne_of_not_mem hchar.symm (hrest none nofun)
  · exact List.not_mem_cons_of_ne_of_not_mem replacementChar_ne_nul.symm (hrest none nofun)
  · exact hrest (some q) fun q' hq' => Option.some.inj hq' ▸ hq

/-- From the start of a sequence, or inside a sound one, bytes other than 00 make no U+0000. -/
theorem nul_not_mem_utf8Decode {bs : List Byte} (hbs : 0x00#8 ∉ bs) (r : Option Utf8Partial)
    (hr : ∀ q, r = some q → q.Sound) : Char.ofNat 0 ∉ utf8Decode r bs := by
  induction bs generalizing r with
  | nil =>
    cases r with
    | none => exact List.not_mem_nil
    | some q => exact fun h => replacementChar_ne_nul (List.mem_singleton.1 h).symm
  | cons b bs ih =>
    obtain ⟨hb, hbs⟩ := List.ne_and_not_mem_of_not_mem_cons hbs
    have hlead := nul_not_mem_of_lead hb.symm (ih hbs)
    cases r with
    | none => exact hlead
    | some q =>
      obtain ⟨acc, due, lo, hi⟩ := q
      have hq := hr _ rfl
      by_cases hin : lo ≤ b.toNat ∧ b.toNat ≤ hi
      · obtain _ | _ | due := due
        · exact absurd hq.due (Nat.not_succ_le_self 0)
        · rw [utf8Decode_last hin]
          exact List.not_mem_cons_of_ne_of_not_mem (hq.char_ne_nul hin.1 hin.2).symm (ih hbs none nofun)
        · rw [utf8Decode_next hin]
          exact ih hbs _ fun q' hq' => Option.some.inj hq' ▸ hq.next hin.1 hin.2
      · rw [utf8Decode, if_neg hin]
        exact List.not_mem_cons_of_ne_of_not_mem replacementChar_ne_nul.symm hlead

end Sys2Proof.Machine

namespace Sys2Proof.Proofs

open Sys2Proof.Machine Sys2Proof.Claims

/-- Settles O43: the two tests of the port, and the cells of the range otherwise. -/
theorem debugPortReadsCellsOutsideARun : Obligations.DebugPortReadsCellsOutsideARun := by
  refine fun s a n => ⟨fun hr hn => ⟨_, State.debugRead_accepted hr hn, ?_, fun k => getElem?_map_range'⟩,
    fun _ => State.debugRead_past_end, State.debugRead_running a n⟩
  rw [List.length_map, List.length_range']

/-- Settles O44: one character's bytes at a time. -/
theorem wellFormedUtf8DecodesToItsCodePoints : Obligations.WellFormedUtf8DecodesToItsCodePoints :=
  utf8Lossy_encode

/-- Settles O45: the buffer ends before the first zero byte, and no sequence of other bytes makes U+0000. -/
theorem printedStringHasNoNul : Obligations.PrintedStringHasNoNul :=
  ⟨fun _ _ _ => not_mem_of_cString, fun _ hbuf => nul_not_mem_utf8Decode hbuf none nofun⟩

end Sys2Proof.Proofs
